-- ==== Sys2Proof/Word.lean ====
section
/-! DEFINITION. The word types of the block (00_scope R6, R8, R9; 10_state R29): every address, PTE and operand is an
unsigned 64-bit value, memory is made of bytes. -/

namespace Sys2Proof

/-- A 64-bit value: an address, a PTE, an operand, the DATA of a response (R9). -/
abbrev Word := BitVec 64

/-- A byte of memory (R23). -/
abbrev Byte := BitVec 8

/-- A physical address. Any 64-bit value is one (R29, R83: the raw constructor is the identity). -/
abbrev PhysAddr := Word

/-- A virtual address. Any 64-bit value is one (R29, R83: the raw constructor is the identity). -/
abbrev VirtAddr := Word

/-- A virtual page number, `va[63:12]` (R86). -/
abbrev Vpn := BitVec 52

/-- A physical frame number, `pa[63:12]` (R80). -/
abbrev Frame := BitVec 52

/-- An index into a table of 512 entries (R6, R61). -/
abbrev TableIndex := BitVec 9

end Sys2Proof
end

