-- ==== Sys2Proof/Machine/Operands.lean ====
section
/-! DEFINITION. The operand forms: the address decomposer (40_address_types R80 to R87), the set, tag and byte selects of the
TLB (42_tlb R120, R121) and of the L1 (43_l1_cache R150 to R152), and the address of a table slot (30_encoding R68,
41_page_table_entry R106). All are pure functions; none reads or writes state. -/

namespace Sys2Proof.Machine

/-! ## The address decomposer -/

/-- R80: the frame number of a physical address, `pa[63:12]`. -/
def frame (pa : PhysAddr) : Frame := pa.extractLsb' 12 52

/-- R81: the page offset of an address of either kind, `a[11:0]`. -/
def offset (a : Word) : BitVec 12 := a.extractLsb' 0 12

/-- The mask `0xFFF` of R82 and R84. -/
def offsetMask : Word := 0xFFF#64

/-- R82: a physical address from a frame number and an offset, both given as 64-bit values. -/
def physFrom (fr off : Word) : PhysAddr := (fr <<< 12) ||| (off &&& offsetMask)

/-- R83: the raw constructor of a physical address. -/
def physRaw (v : Word) : PhysAddr := v

/-- R83: the raw constructor of a virtual address. -/
def virtRaw (v : Word) : VirtAddr := v

/-- R84: replace the low 12 bits of `pa` by those of `off`. -/
def withOffset (pa : PhysAddr) (off : Word) : PhysAddr := (pa &&& ~~~offsetMask) ||| (off &&& offsetMask)

/-- The four levels of the page table, root first (R6, R188). -/
inductive Level where
  | level1
  | level2
  | level3
  | level4
deriving DecidableEq, Repr

/-- The levels in the order the walk takes them (R180). -/
def levels : List Level := [.level1, .level2, .level3, .level4]

/-- R85: the level-1 index, `va[47:39]`. -/
def vpn1 (va : VirtAddr) : TableIndex := va.extractLsb' 39 9

/-- R85: the level-2 index, `va[38:30]`. -/
def vpn2 (va : VirtAddr) : TableIndex := va.extractLsb' 30 9

/-- R85: the level-3 index, `va[29:21]`. -/
def vpn3 (va : VirtAddr) : TableIndex := va.extractLsb' 21 9

/-- R85: the level-4 index, `va[20:12]`. -/
def vpn4 (va : VirtAddr) : TableIndex := va.extractLsb' 12 9

/-- R85: `vpn_level(va, k)`. -/
def vpnLevel (va : VirtAddr) : Level → TableIndex
  | .level1 => vpn1 va
  | .level2 => vpn2 va
  | .level3 => vpn3 va
  | .level4 => vpn4 va

/-- R86: the virtual page number, `va[63:12]`. -/
def vpn (va : VirtAddr) : Vpn := va.extractLsb' 12 52

/-- R87: `(va + n) mod 2^64`. -/
def vaAdd (va : VirtAddr) (n : Word) : VirtAddr := va + n

/-! ## Selects of the TLB and the L1 -/

/-- R120: the TLB set of a VPN, `v[6:0]`. -/
def tlbSet (v : Vpn) : Fin 128 := (v.extractLsb' 0 7).toFin

/-- R121: the TLB tag of a VPN, the VPN with bits 6:0 cleared and not shifted, held in 64 bits (R24). -/
def tlbTag (v : Vpn) : Word := (v &&& ~~~127#52).setWidth 64

/-- R150: the L1 set of a physical address, `pa[11:6]`. -/
def l1Set (pa : PhysAddr) : Fin 64 := ((offset pa).extractLsb' 6 6).toFin

/-- R151: the L1 tag of a physical address, its frame number. -/
def l1Tag (pa : PhysAddr) : Frame := frame pa

/-- R152: the byte of a line, `pa[5:0]`. -/
def l1Byte (pa : PhysAddr) : Fin 64 := (pa.extractLsb' 0 6).toFin

/-- R152: the address of the first byte of the line, `pa & ~63`. -/
def l1Base (pa : PhysAddr) : PhysAddr := pa &&& ~~~63#64

/-! ## Table slots -/

/-- R45, R64: the operand `table_loc` is frame-aligned. -/
def frameAligned (a : PhysAddr) : Bool := offset a == 0#12

/-- R68, R106: the byte address of entry `i` of the table at `t`, `t + 8*i`, exact (R9). -/
def slotAddr (t : PhysAddr) (i : TableIndex) : Nat := t.toNat + 8 * i.toNat

end Sys2Proof.Machine
end

