-- ==== Sys2Proof/Config.lean ====
section
/-! DEFINITION. The construction parameters of the block (00_scope R7). The fixed parameters of R6 (128 sets of 4 ways,
64 sets of 8 ways, lines of 64 bytes, 512 entries of 8 bytes, 4 levels) stand as literals in the types and rules that use
them. No value of this hardware is free: 70_reset_and_hazards R241 leaves none unspecified, and the one OPEN item,
TLB_CTR_MAX, is a parameter. -/

namespace Sys2Proof

/-- The arguments of a construction (R7). -/
structure Params where
  /-- MEM_MB, the size of physical memory in megabytes of 2^20 bytes; legal from 1 on. -/
  memMB : Nat
  /-- CR3_INIT, the address of the root table; legal when bits 11:0 are 0. -/
  cr3Init : PhysAddr
  /-- TLB_CTR_MAX, where a TLB access counter saturates; legal from 1 on. -/
  tlbCtrMax : Nat
deriving DecidableEq, Repr

/-- The parameters of the spec's standard fixture (95_test_vectors §0): MEM_MB = 1, CR3_INIT = 0xF000, and a TLB_CTR_MAX of
at least 200. DESIGN CHOICE (log entry 1): `State.reset` is built with these; no other definition looks at them. -/
def Params.standard : Params := { memMB := 1, cr3Init := 0xF000#64, tlbCtrMax := 255 }

end Sys2Proof
end

