-- ==== Sys2Proof/Syntax.lean ====
section
/-! DEFINITION. The block's operations as data, one constructor per row of spec/opcode_table.json (30_encoding R63), the
request that carries one over the interface (R60 to R62), and the names under which a request is ill-formed (R67). -/

namespace Sys2Proof

/-- One request of the request channel (R60): a 16-bit command word and two 64-bit operands. -/
structure Request where
  /-- CMD: IDX in bits 15:7, RSV in bits 6:3, OP in bits 2:0 (R61). -/
  cmd : BitVec 16
  /-- A: the first address argument (R62). -/
  a : Word
  /-- B: the target of MAP_PAGE (R62). -/
  b : Word
deriving DecidableEq, Repr

/-- The seven public operations and the reserved op code (R63). -/
inductive Instr where
  /-- TRANSLATE: `translate(A)` (R181). -/
  | translate (va : VirtAddr)
  /-- READ: `read(A)` (R182). -/
  | read (va : VirtAddr)
  /-- READ_PHYS: `read_phys(A)` (R183). -/
  | readPhys (pa : PhysAddr)
  /-- MAP_PAGE: `map_page(A, IDX, B)` (R184). -/
  | mapPage (tableLoc : PhysAddr) (index : TableIndex) (target : PhysAddr)
  /-- UNMAP_PAGE: `unmap_page(A, IDX)` (R185). -/
  | unmapPage (tableLoc : PhysAddr) (index : TableIndex)
  /-- INVALIDATE_TLB: `invalidate_tlb()` (R186). -/
  | invalidateTlb
  /-- INVALIDATE_CACHE: `invalidate_cache()` (R187). -/
  | invalidateCache
  /-- RESERVED: OP = 7, whatever the other bits of the request are (R63, R67). It keeps them, so that no two requests
  share a meaning. DESIGN CHOICE (log entry 7): the row is syntax that decodes, and is refused in its meaning. -/
  | reserved (upper : BitVec 13) (a b : Word)
deriving DecidableEq, Repr

/-- Why a request with OP other than 7 is ill-formed (R67). -/
inductive Malformed where
  /-- `RSV != 0`. -/
  | rsvNotZero
  /-- `IDX != 0` for an operation other than MAP_PAGE and UNMAP_PAGE. -/
  | idxNotZero
  /-- A is not 0 where R64 says it must be. -/
  | aNotZero
  /-- B is not 0 where R64 says it must be. -/
  | bNotZero
  /-- `A[11:0] != 0` for MAP_PAGE or UNMAP_PAGE. -/
  | tableLocMisaligned
deriving DecidableEq, Repr

end Sys2Proof
end

