-- ==== Sys2Proof/WellFormed.lean ====
section
/-! DEFINITION. Which terms of `Instr` some request encodes (30_encoding R64, R67): a `table_loc` operand is frame-aligned.
Every other condition of R64 holds by the shape of the term. The reserved op code is a row of the table, so its terms are
encodable; that it is refused is its meaning (R67). -/

namespace Sys2Proof

/-- The check, one arm per constructor. -/
def Instr.wellFormed : Instr → Bool
  | .translate _ => true
  | .read _ => true
  | .readPhys _ => true
  | .mapPage tableLoc _ _ => Machine.frameAligned tableLoc
  | .unmapPage tableLoc _ => Machine.frameAligned tableLoc
  | .invalidateTlb => true
  | .invalidateCache => true
  | .reserved _ _ _ => true

end Sys2Proof
end

