-- ==== Sys2Proof/Decode.lean ====
section
/-! DEFINITION. Decoding and encoding of requests (30_encoding R61 to R64, R67, R68, R71), and the opcode table's rows.
Decoding is total: every request is one operation of R63 with its operands, the reserved op code, or ill-formed by name. -/

namespace Sys2Proof

/-! ## The fields of the command word (R61) -/

/-- `OP`, bits 2:0. -/
def opField (cmd : BitVec 16) : BitVec 3 := cmd.extractLsb' 0 3

/-- `RSV`, bits 6:3. -/
def rsvField (cmd : BitVec 16) : BitVec 4 := cmd.extractLsb' 3 4

/-- `IDX`, bits 15:7. -/
def idxField (cmd : BitVec 16) : TableIndex := cmd.extractLsb' 7 9

/-- The bits above `OP`, which the reserved op code leaves open (R63), bits 15:3. -/
def upperField (cmd : BitVec 16) : BitVec 13 := cmd.extractLsb' 3 13

/-! ## Operand use (R64) -/

/-- What R64 asks of a field of a request. -/
inductive FieldUse where
  /-- "must be 0". -/
  | mustBeZero
  /-- any value. -/
  | anyValue
  /-- "bits[11:0] must be 0". -/
  | frameAligned
deriving DecidableEq, Repr

/-- One row of R64: the use of IDX, A and B. -/
structure OperandUse where
  idx : FieldUse
  a : FieldUse
  b : FieldUse
deriving DecidableEq, Repr

/-- The first reason of R67 for which a request of an operation with this use of its operands is refused. DESIGN CHOICE
(log entry 6): where several hold, the order RSV, IDX, A, B decides which is named. -/
def malformed (u : OperandUse) (r : Request) : Option Malformed :=
  if rsvField r.cmd ≠ 0#4 then some .rsvNotZero
  else if u.idx = .mustBeZero ∧ idxField r.cmd ≠ 0#9 then some .idxNotZero
  else if u.a = .mustBeZero ∧ r.a ≠ 0#64 then some .aNotZero
  else if u.a = .frameAligned ∧ Machine.frameAligned r.a = false then some .tableLocMisaligned
  else if u.b = .mustBeZero ∧ r.b ≠ 0#64 then some .bNotZero
  else none

/-- The instruction, unless the request is ill-formed for it. -/
def ifWellFormed (u : OperandUse) (r : Request) (i : Instr) : Except Malformed Instr :=
  match malformed u r with
  | some e => .error e
  | none => .ok i

/-- R64, the rows of TRANSLATE, READ and READ_PHYS. -/
def useAddress : OperandUse := ⟨.mustBeZero, .anyValue, .mustBeZero⟩

/-- R64, the row of MAP_PAGE. -/
def useMap : OperandUse := ⟨.anyValue, .frameAligned, .anyValue⟩

/-- R64, the row of UNMAP_PAGE. -/
def useUnmap : OperandUse := ⟨.anyValue, .frameAligned, .mustBeZero⟩

/-- R64, the rows of INVALIDATE_TLB and INVALIDATE_CACHE. -/
def useNothing : OperandUse := ⟨.mustBeZero, .mustBeZero, .mustBeZero⟩

/-! ## The decoder -/

/-- R63, R67, R71: the operation a request asks for. -/
def decode (r : Request) : Except Malformed Instr :=
  match (opField r.cmd).toNat with
  | 0 => ifWellFormed useAddress r (.translate r.a)
  | 1 => ifWellFormed useAddress r (.read r.a)
  | 2 => ifWellFormed useAddress r (.readPhys r.a)
  | 3 => ifWellFormed useMap r (.mapPage r.a (idxField r.cmd) r.b)
  | 4 => ifWellFormed useUnmap r (.unmapPage r.a (idxField r.cmd))
  | 5 => ifWellFormed useNothing r .invalidateTlb
  | 6 => ifWellFormed useNothing r .invalidateCache
  | _ => .ok (.reserved (upperField r.cmd) r.a r.b)

/-- The words of an instruction in one number, laid out as the opcode table numbers bits: CMD in bits 15:0, then A in bits
79:16, then B in bits 143:80. Bits from `nbits` on are 0. DESIGN CHOICE (log entry 9): the spec gives CMD, A and B as three
values of one channel and no layout of them in one number. -/
def requestOfTableWord (nbits w : Nat) : Request :=
  let v := w % 2 ^ nbits
  { cmd := BitVec.ofNat 16 v, a := BitVec.ofNat 64 (v / 2 ^ 16), b := BitVec.ofNat 64 (v / 2 ^ 80) }

/-- What the decoder reads from an instruction whose bits are `w`. -/
def decodeTableWord (nbits w : Nat) : Option Instr :=
  match decode (requestOfTableWord nbits w) with
  | .ok i => some i
  | .error _ => none

/-! ## The encoder -/

/-- R61: a command word from its index and op code, `(IDX << 7) | OP`. -/
def commandWord (idx : TableIndex) (op : BitVec 3) : BitVec 16 := (idx.setWidth 16 <<< 7) ||| op.setWidth 16

/-- R63: the command word of the reserved op code, whatever its 13 other bits. -/
def reservedWord (upper : BitVec 13) : BitVec 16 := (upper.setWidth 16 <<< 3) ||| 7#16

/-- R62 to R64: the request of an instruction. -/
def encode : Instr → Request
  | .translate va => ⟨commandWord 0#9 0#3, va, 0#64⟩
  | .read va => ⟨commandWord 0#9 1#3, va, 0#64⟩
  | .readPhys pa => ⟨commandWord 0#9 2#3, pa, 0#64⟩
  | .mapPage tableLoc index target => ⟨commandWord index 3#3, tableLoc, target⟩
  | .unmapPage tableLoc index => ⟨commandWord index 4#3, tableLoc, 0#64⟩
  | .invalidateTlb => ⟨commandWord 0#9 5#3, 0#64, 0#64⟩
  | .invalidateCache => ⟨commandWord 0#9 6#3, 0#64, 0#64⟩
  | .reserved upper a b => ⟨reservedWord upper, a, b⟩

/-! ## The opcode table (R63) -/

/-- A row of R63: a command word `c` belongs to it when `c & mask = pattern`. -/
structure TableRow where
  mnemonic : String
  pattern : BitVec 16
  mask : BitVec 16
deriving DecidableEq, Repr

/-- The rows of R63, in its order. -/
def tableRows : List TableRow :=
  [⟨"TRANSLATE", 0x0000#16, 0xFFFF#16⟩, ⟨"READ", 0x0001#16, 0xFFFF#16⟩, ⟨"READ_PHYS", 0x0002#16, 0xFFFF#16⟩,
   ⟨"MAP_PAGE", 0x0003#16, 0x007F#16⟩, ⟨"UNMAP_PAGE", 0x0004#16, 0x007F#16⟩, ⟨"INVALIDATE_TLB", 0x0005#16, 0xFFFF#16⟩,
   ⟨"INVALIDATE_CACHE", 0x0006#16, 0xFFFF#16⟩, ⟨"RESERVED", 0x0007#16, 0x0007#16⟩]

/-- The command word belongs to the row. -/
def TableRow.owns (row : TableRow) (cmd : BitVec 16) : Bool := cmd &&& row.mask == row.pattern

/-- The number of the row of `tableRows` an instruction stands for. -/
def rowOf : Instr → Fin 8
  | .translate _ => 0
  | .read _ => 1
  | .readPhys _ => 2
  | .mapPage _ _ _ => 3
  | .unmapPage _ _ => 4
  | .invalidateTlb => 5
  | .invalidateCache => 6
  | .reserved _ _ _ => 7

end Sys2Proof
end

