-- ==== Sys2Proof/Machine/State.lean ====
section
/-! DEFINITION. The state of the block as plain data (10_state R20 to R28), the reasons a step can stop, and the state after
construction (70_reset_and_hazards R241). -/

namespace Sys2Proof.Machine

/-- One way of the TLB (R24). -/
structure TlbWay where
  /-- The way holds a translation. -/
  valid : Bool
  /-- `vpn(va) & ~127` of the translated address. -/
  tag : Word
  /-- The access counter. -/
  ctr : Nat
  /-- The physical address of the walk that filled the way, with the offset of the address that caused the fill. -/
  pa : PhysAddr
deriving DecidableEq, Repr

/-- The construction value of a way (R24, R126). -/
def TlbWay.empty : TlbWay := { valid := false, tag := 0#64, ctr := 0, pa := 0#64 }

/-- A set of the TLB: 4 ways (R25). -/
abbrev TlbWays := Vector TlbWay 4

/-- The TLB: 128 sets (R25). -/
abbrev Tlb := Vector TlbWays 128

/-- The TLB with every way at its construction value. -/
def Tlb.empty : Tlb := Vector.replicate 128 (Vector.replicate 4 TlbWay.empty)

/-- A line of the L1: 64 bytes (R26). -/
abbrev Line := Vector Byte 64

/-- One way of the L1 (R26). -/
structure L1Way where
  /-- The way holds a line. -/
  valid : Bool
  /-- The frame number of the line. -/
  tag : Frame
  /-- The bytes of memory as they were at the fill. -/
  line : Line
deriving DecidableEq, Repr

/-- The construction value of a way (R26, R156). -/
def L1Way.empty : L1Way := { valid := false, tag := 0#52, line := Vector.replicate 64 0#8 }

/-- A set of the L1: 8 ways (R27). -/
abbrev L1Ways := Vector L1Way 8

/-- The L1: 64 sets (R27). -/
abbrev L1 := Vector L1Ways 64

/-- The L1 with every way at its construction value. -/
def L1.empty : L1 := Vector.replicate 64 (Vector.replicate 8 L1Way.empty)

/-- Physical memory (R23): the bytes that are not 0, addresses strictly rising. An unlisted byte reads 0, its reset value. -/
abbrev Memory := List Host.Cell

/-- STATUS of a response (R65). Its fourth code is never returned, so it has no name. -/
inductive Status where
  /-- 0, OK: completed. -/
  | ok
  /-- 1, PAGE_FAULT: translation failed. -/
  | pageFault
  /-- 2, FATAL: an out-of-bounds physical access. -/
  | fatal
deriving DecidableEq, Repr

/-- A response of the response channel (R60, R65). -/
structure Response where
  status : Status
  data : Word
deriving DecidableEq, Repr

/-- The four event outputs (R60, R66). -/
inductive Event where
  | tlbHit
  | tlbMiss
  | l1Hit
  | l1Miss
deriving DecidableEq, Repr

/-- The two exceptions (60_exceptions R220). -/
inductive Exception where
  /-- A walk found an indexed entry with P = 0 (R221). -/
  | pageFault
  /-- `Fatal(OutOfBounds)`: a physical access reaches past MEM_BYTES (R223). -/
  | outOfBounds
deriving DecidableEq, Repr

/-- The block, its construction parameters, and its interface. -/
structure State where
  /-- MEM_MB (R7): a parameter, fixed at construction. -/
  memMB : Nat
  /-- TLB_CTR_MAX (R7): a parameter, fixed at construction. -/
  tlbCtrMax : Nat
  /-- `cr3`, the address of the root table (R22). -/
  cr3 : PhysAddr
  /-- Physical memory (R23). -/
  mem : Memory
  /-- The TLB (R24, R25). -/
  tlb : Tlb
  /-- The L1 data cache (R26, R27). -/
  l1 : L1
  /-- Set by a Fatal outcome, never cleared (R28). -/
  halted : Bool
  /-- The request channel: what the requester has still to issue, the next request first (R60). DESIGN CHOICE (log entry
  2). -/
  requests : List Request
  /-- The response channel: the response of the last request, none before the first (R60). DESIGN CHOICE (log entry 4). -/
  response : Option Response
  /-- The event outputs: the pulses of the last request, in order (R60, R66). DESIGN CHOICE (log entry 4). -/
  events : List Event
deriving DecidableEq, Repr

/-- Why the machine stops with a fault. -/
inductive Fault where
  /-- Raised by `step` alone, when the block is halted and no request is left: R224, "A model treats a halted state as a fault
  state, never as a normal final state", "The block never leaves this state". Safe: the hardware does nothing more. -/
  | halted
deriving DecidableEq, Repr

/-- Why a request, or a construction, is refused: it has no meaning, no response and no effect (R225). All are safe: the spec
gives the refused request no behaviour. -/
inductive Refusal where
  /-- Raised by an arm of `exec` whose instruction has no meaning yet. No arm is one in this model. -/
  | notModelled (mnemonic : String)
  /-- Raised by every operation while the block is halted (R28, R67). -/
  | halted
  /-- Raised by the reserved op code (R67). -/
  | reservedOp
  /-- Raised by `map_page` and `unmap_page` (R184, R185) when `table_loc[11:0] != 0`. -/
  | misalignedTableLoc
  /-- Raised by `step` when the request is ill-formed (R67). -/
  | illFormed (why : Malformed)
  /-- Raised by `construct` when MEM_MB < 1 (R240). -/
  | memMBBelowOne
  /-- Raised by `construct` when CR3_INIT[11:0] != 0 (R240). -/
  | cr3InitMisaligned
  /-- Raised by `construct` when TLB_CTR_MAX < 1 (R240). -/
  | tlbCtrMaxBelowOne
deriving DecidableEq, Repr

/-- R241: the state after a construction with these parameters. -/
def State.ofParams (p : Params) : State where
  memMB := p.memMB
  tlbCtrMax := p.tlbCtrMax
  cr3 := p.cr3Init
  mem := []
  tlb := Tlb.empty
  l1 := L1.empty
  halted := false
  requests := []
  response := none
  events := []

/-- The machine right after reset: construction with the parameters of the spec's standard fixture (log entry 1). -/
def State.reset : State := State.ofParams Params.standard

end Sys2Proof.Machine
end

