-- ==== Sys2Proof/Machine/Flags.lean ====
section
/-! DEFINITION. The block has no condition flags: "The only condition indication is the response status of each operation"
(10_state R21). Here stand that status and its 2-bit code, the response, and the event outputs (30_encoding R65, R66). -/

namespace Sys2Proof.Machine

/-- R65: the 2-bit code of STATUS. -/
def statusCode : Status → BitVec 2
  | .ok => 0#2
  | .pageFault => 1#2
  | .fatal => 2#2

/-- R65, R220: the status an exception answers with. -/
def exceptionStatus : Exception → Status
  | .pageFault => .pageFault
  | .outOfBounds => .fatal

/-- R10 `emit(EV)`: pulse an event output once, in program order within the operation. -/
def emit (e : Event) (s : State) : State := { s with events := s.events ++ [e] }

/-- R60, R65: drive the response channel. -/
def respond (status : Status) (data : Word) (s : State) : State := { s with response := some ⟨status, data⟩ }

/-- A request is accepted: the outputs of the one before it are gone (R60, R66; log entry 4). -/
def beginRequest (s : State) : State := { s with response := none, events := [] }

/-- How often an output is pulsed in a list of pulses: what a requester counts (R66, R250). -/
def pulses (e : Event) (l : List Event) : Nat := l.count e

end Sys2Proof.Machine
end

