-- ==== Sys2Proof/Machine/Ops.lean ====
section
/-! DEFINITION. The named operations: construction (70 R240), physical memory (20_memory R40 to R42), page-table entries and
the table view (41_page_table_entry R100 to R108), taking an exception (60_exceptions R220 to R224), and the frame every
operation runs in. There is no return from an exception: "There is no return-from-trap operation and nothing to restore"
(R229); after a PageFault the next request simply runs. -/

namespace Sys2Proof.Machine

/-! ## Construction -/

/-- R240: construction, the block's only reset. DESIGN CHOICE (log entry 6): where several parameters are illegal, the refusal names
the first of MEM_MB, CR3_INIT and TLB_CTR_MAX. -/
def construct (p : Params) : Host.Outcome State Fault Refusal :=
  if p.memMB < 1 then .refused .memMBBelowOne
  else if frameAligned p.cr3Init = false then .refused .cr3InitMisaligned
  else if p.tlbCtrMax < 1 then .refused .tlbCtrMaxBelowOne
  else .next (State.ofParams p)

/-- R7: `MEM_BYTES = MEM_MB * 2^20`. (Here and in `inBounds` the numeral stands first: Lean's kernel then leaves the term alone
while the variable is open.) -/
def memBytes (s : State) : Nat := 2 ^ 20 * s.memMB

/-! ## Bytes of memory -/

/-- `Mem[a]` (R10, R23). -/
def readByte : Memory → Nat → Byte
  | [], _ => 0#8
  | (k, b) :: rest, a => if a = k then b else readByte rest a

/-- One cell in front of a memory, left out when its byte is 0. -/
def consByte (a : Nat) (b : Byte) (m : Memory) : Memory := if b = 0#8 then m else (a, b) :: m

/-- `Mem[a] <- b`, keeping the canonical form. -/
def writeByte : Memory → Nat → Byte → Memory
  | [], a, b => consByte a b []
  | (k, c) :: rest, a, b =>
    if a < k then consByte a b ((k, c) :: rest)
    else if a = k then consByte a b rest
    else (k, c) :: writeByte rest a b

/-- The canonical form: addresses strictly rising, no byte equal to the 0 an unlisted address reads as. -/
def Memory.wf : Memory → Bool
  | [] => true
  | [(_, b)] => b != 0#8
  | (a, b) :: (c, d) :: rest => b != 0#8 && a < c && Memory.wf ((c, d) :: rest)

/-! ## Little-endian values (R42) -/

/-- The `n` bytes at `a` as an unsigned integer: the sum of `Mem[a + k] << 8k` (R40). -/
def loadBytes (m : Memory) (a : Nat) : Nat → Nat
  | 0 => 0
  | n + 1 => (readByte m a).toNat + 256 * loadBytes m (a + 1) n

/-- `Mem[a + k] <- (v >> 8k) & 0xFF` for `k` in `0..n-1` (R41). -/
def storeBytes (m : Memory) (a : Nat) (v : Nat) : Nat → Memory
  | 0 => m
  | n + 1 => storeBytes (writeByte m a (BitVec.ofNat 8 v)) (a + 1) (v / 256) n

/-! ## Bounds-checked accesses -/

/-- R10, R40: `BoundsCheck(addr, n)` passes when `addr + n <= MEM_BYTES`, exact. -/
def inBounds (s : State) (addr n : Nat) : Bool := n + addr ≤ memBytes s

/-- R40: `MemRead(addr, n)`. -/
def memRead (s : State) (addr n : Nat) : Except Exception Nat :=
  if inBounds s addr n then .ok (loadBytes s.mem addr n) else .error .outOfBounds

/-- R41: `MemWrite(addr, n, v)`. -/
def memWrite (s : State) (addr n v : Nat) : Except Exception State :=
  if inBounds s addr n then .ok { s with mem := storeBytes s.mem addr v n } else .error .outOfBounds

/-! ## Page-table entries -/

/-- R101: `e[0]`. R105: bits 11:1 take no part. -/
def isPresent (e : Word) : Bool := e.getLsbD 0

/-- R102: `e & ~0xFFF`. R105: bits 11:0 take no part. -/
def physAddr (e : Word) : PhysAddr := e &&& ~~~offsetMask

/-- R103: `(target & ~0xFFF) | 1`. -/
def newPresent (target : PhysAddr) : Word := (target &&& ~~~offsetMask) ||| 1#64

/-- R104: 0. -/
def newUnmapped : Word := 0#64

/-- R107: entry `i` of the table at `t`, after the bounds check of the whole table. -/
def tableRead (s : State) (t : PhysAddr) (i : TableIndex) : Except Exception Word :=
  if inBounds s t.toNat 4096 then
    match memRead s (slotAddr t i) 8 with
    | .ok v => .ok (BitVec.ofNat 64 v)
    | .error e => .error e
  else .error .outOfBounds

/-- R108: write entry `i` of the table at `t`, after the bounds check of the whole table. -/
def tableWrite (s : State) (t : PhysAddr) (i : TableIndex) (e : Word) : Except Exception State :=
  if inBounds s t.toNat 4096 then memWrite s (slotAddr t i) 8 e.toNat else .error .outOfBounds

/-! ## Exceptions and the frame of an operation -/

/-- Taking an exception. The operation ends with the exception's status and DATA 0 (R65, R220). A PageFault changes nothing
more and records nothing (R222); a Fatal halts the block (R224). Changes and pulses the operation made before stay (R224). -/
def takeException (e : Exception) (s : State) : State :=
  match e with
  | .pageFault => respond (exceptionStatus .pageFault) 0#64 s
  | .outOfBounds => { respond (exceptionStatus .outOfBounds) 0#64 s with halted := true }

/-- Run the body of an operation and answer its request: OK with its value, or the exception it raised (R11, R65). -/
def perform (body : State → State × Except Exception Word) (s : State) : Host.Outcome State Fault Refusal :=
  match body (beginRequest s) with
  | (t, .ok v) => .next (respond .ok v t)
  | (t, .error e) => .next (takeException e t)

/-- R28, R67: while the block is halted every operation is refused before any of its steps runs. -/
def whenRunning (s : State) (k : Host.Outcome State Fault Refusal) : Host.Outcome State Fault Refusal :=
  if s.halted then .refused .halted else k

/-- R184, R185: a misaligned `table_loc` is refused. -/
def whenAligned (tableLoc : PhysAddr) (k : Host.Outcome State Fault Refusal) : Host.Outcome State Fault Refusal :=
  if frameAligned tableLoc then k else .refused .misalignedTableLoc

end Sys2Proof.Machine
end

