-- ==== Sys2Proof/Machine/L1.lean ====
section
/-! DEFINITION. The L1 primitives (43_l1_cache R153 to R156). -/

namespace Sys2Proof.Machine

/-- The ways of an L1 set in scan order. -/
def l1WayOrder : List (Fin 8) := [0, 1, 2, 3, 4, 5, 6, 7]

/-- The test of R153: `valid && tag == t`. -/
def l1Matches (t : Frame) (w : L1Way) : Bool := w.valid && w.tag == t

/-- The scan of R153: the first matching way, ascending. -/
def l1Find (ways : L1Ways) (t : Frame) : Option (Fin 8) := l1WayOrder.find? fun w => l1Matches t ways[w]

/-- The set of the L1 a physical address uses (R150). -/
def l1SetOf (s : State) (pa : PhysAddr) : L1Ways := s.l1[l1Set pa]

/-- Replace the set of the L1 a physical address uses. -/
def putL1Set (pa : PhysAddr) (ways : L1Ways) (s : State) : State :=
  { s with l1 := s.l1.set (l1Set pa).val ways (l1Set pa).isLt }

/-- R153: `l1_lookup(pa)`, a hit's byte or none. It writes nothing. -/
def l1Lookup (pa : PhysAddr) (s : State) : Option Byte :=
  match l1Find (l1SetOf s pa) (l1Tag pa) with
  | some w => some (l1SetOf s pa)[w].line[l1Byte pa]
  | none => none

/-- One step of the scan of R154: keep the last invalid way. -/
def laterInvalid (ways : L1Ways) (v w : Fin 8) : Fin 8 := if ways[w].valid then v else w

/-- R154: `l1_victim(s)`, the last invalid way, else way 0. -/
def l1Victim (ways : L1Ways) : Fin 8 := l1WayOrder.foldl (laterInvalid ways) 0

/-- The 64 bytes of memory from `base` on (R155). -/
def loadLine (m : Memory) (base : Nat) : Line :=
  ⟨((List.range 64).map fun k => readByte m (base + k)).toArray, by simp⟩

/-- R155: the set after a fill, `{valid = 1, tag = t, line = data}` in the victim way. -/
def fillWay (ways : L1Ways) (t : Frame) (data : Line) : L1Ways :=
  ways.set (l1Victim ways).val { valid := true, tag := t, line := data } (l1Victim ways).isLt

/-- R155: `l1_fill(pa)`, the state after the fill and the byte, or the exception of its bounds check. -/
def l1Fill (pa : PhysAddr) (s : State) : Except Exception (State × Byte) :=
  if inBounds s (l1Base pa).toNat 64 then
    let data := loadLine s.mem (l1Base pa).toNat
    .ok (putL1Set pa (fillWay (l1SetOf s pa) (l1Tag pa) data) s, data[l1Byte pa])
  else .error .outOfBounds

/-- R156: `l1_invalidate()`. -/
def l1Invalidate (s : State) : State := { s with l1 := L1.empty }

end Sys2Proof.Machine
end

