-- ==== Sys2Proof/Machine/Tlb.lean ====
section
/-! DEFINITION. The TLB primitives (42_tlb R122 to R126). None touches memory or raises an exception. -/

namespace Sys2Proof.Machine

/-- The ways of a TLB set in scan order. -/
def tlbWayOrder : List (Fin 4) := [0, 1, 2, 3]

/-- R122: `min(c + 1, TLB_CTR_MAX)`. -/
def satInc (ctrMax c : Nat) : Nat := min (c + 1) ctrMax

/-- The test of R123: `valid && tag == t`. -/
def tlbMatches (t : Word) (w : TlbWay) : Bool := w.valid && w.tag == t

/-- The scan of R123: the first matching way, ascending. -/
def tlbFind (ways : TlbWays) (t : Word) : Option (Fin 4) := tlbWayOrder.find? fun w => tlbMatches t ways[w]

/-- The set of the TLB a virtual address uses (R120). -/
def tlbSetOf (s : State) (va : VirtAddr) : TlbWays := s.tlb[tlbSet (vpn va)]

/-- Replace the set of the TLB a virtual address uses. -/
def putTlbSet (va : VirtAddr) (ways : TlbWays) (s : State) : State :=
  { s with tlb := s.tlb.set (tlbSet (vpn va)).val ways (tlbSet (vpn va)).isLt }

/-- R123, what a hit writes: the counter of the hit way, and nothing else. -/
def bumpWay (ctrMax : Nat) (ways : TlbWays) (w : Fin 4) : TlbWays :=
  ways.set w.val { ways[w] with ctr := satInc ctrMax ways[w].ctr } w.isLt

/-- R123: `tlb_lookup(va)`, a hit's physical address or none, and the state after it. -/
def tlbLookup (va : VirtAddr) (s : State) : Option PhysAddr × State :=
  let ways := tlbSetOf s va
  match tlbFind ways (tlbTag (vpn va)) with
  | some w => (some (withOffset ways[w].pa va), putTlbSet va (bumpWay s.tlbCtrMax ways w) s)
  | none => (none, s)

/-- One step of the scan of R124 for the lowest counter: strict, so the lowest index wins ties. -/
def lowerCounter (ways : TlbWays) (best w : Fin 4) : Fin 4 := if ways[w].ctr < ways[best].ctr then w else best

/-- R124: `tlb_victim(s)`, the first invalid way, else the way with the lowest counter. -/
def tlbVictim (ways : TlbWays) : Fin 4 :=
  match tlbWayOrder.find? fun w => !ways[w].valid with
  | some w => w
  | none => [1, 2, 3].foldl (lowerCounter ways) 0

/-- R125: all four counters of the set go to 0. -/
def clearCounters (ways : TlbWays) : TlbWays :=
  #v[{ ways[0] with ctr := 0 }, { ways[1] with ctr := 0 }, { ways[2] with ctr := 0 }, { ways[3] with ctr := 0 }]

/-- R125: the set after an insert. -/
def insertWay (ctrMax : Nat) (ways : TlbWays) (t : Word) (pa : PhysAddr) : TlbWays :=
  (clearCounters ways).set (tlbVictim ways).val
    { valid := true, tag := t, ctr := satInc ctrMax 0, pa := pa } (tlbVictim ways).isLt

/-- R125: `tlb_insert(va, pa)`. -/
def tlbInsert (va : VirtAddr) (pa : PhysAddr) (s : State) : State :=
  putTlbSet va (insertWay s.tlbCtrMax (tlbSetOf s va) (tlbTag (vpn va)) pa) s

/-- R126: `tlb_invalidate()`. -/
def tlbInvalidate (s : State) : State := { s with tlb := Tlb.empty }

end Sys2Proof.Machine
end

