-- ==== Sys2Proof/Machine/Maintenance.lean ====
section
/-! DEFINITION. The maintenance operations (44_machine_operations R186, R187) and the reserved op code (30_encoding R67):
INVALIDATE_TLB, INVALIDATE_CACHE, RESERVED. -/

namespace Sys2Proof.Machine

/-- INVALIDATE_TLB (R186). -/
def execInvalidateTlb (s : State) : Host.Outcome State Fault Refusal :=
  whenRunning s (perform (fun t => (tlbInvalidate t, .ok 0#64)) s)

/-- INVALIDATE_CACHE (R187). -/
def execInvalidateCache (s : State) : Host.Outcome State Fault Refusal :=
  whenRunning s (perform (fun t => (l1Invalidate t, .ok 0#64)) s)

/-- RESERVED (R67): "A request is refused, and has no effect and no response, when any of these holds: OP = 7 (the reserved op
code)". -/
def execReserved (_upper : BitVec 13) (_a _b : Word) (s : State) : Host.Outcome State Fault Refusal :=
  whenRunning s (.refused .reservedOp)

end Sys2Proof.Machine
end

