-- ==== Sys2Proof/Machine/Translation.lean ====
section
/-! DEFINITION. The page walk and translation (44_machine_operations R180, R181, R188): TRANSLATE. -/

namespace Sys2Proof.Machine

/-- The loop of R180 from the table `t` on, over the levels still to walk. The bounds check of a level's table comes before
its present test (R226). -/
def walkFrom (s : State) (va : VirtAddr) (t : PhysAddr) : List Level → Except Exception PhysAddr
  | [] => .ok t
  | k :: rest =>
    match tableRead s t (vpnLevel va k) with
    | .error e => .error e
    | .ok e => if isPresent e then walkFrom s va (physAddr e) rest else .error .pageFault

/-- R180: `page_walk(va)`, the frame address of the data page. It reads `cr3` and memory and writes nothing. -/
def pageWalk (s : State) (va : VirtAddr) : Except Exception PhysAddr := walkFrom s va s.cr3 levels

/-- R181: `translate(va)`. -/
def translateOp (va : VirtAddr) (s : State) : State × Except Exception PhysAddr :=
  match tlbLookup va s with
  | (some pa, t) => (emit .tlbHit t, .ok pa)
  | (none, t) =>
    match pageWalk (emit .tlbMiss t) va with
    | .error e => (emit .tlbMiss t, .error e)
    | .ok f => (tlbInsert va (withOffset f va) (emit .tlbMiss t), .ok (withOffset f va))

/-- TRANSLATE (R181). -/
def execTranslate (va : VirtAddr) (s : State) : Host.Outcome State Fault Refusal :=
  whenRunning s (perform (translateOp va) s)

end Sys2Proof.Machine
end

