-- ==== Sys2Proof/Machine/Reads.lean ====
section
/-! DEFINITION. The reads (44_machine_operations R182, R183): READ and READ_PHYS. -/

namespace Sys2Proof.Machine

/-- R183: `read_phys(pa)`. -/
def readPhysOp (pa : PhysAddr) (s : State) : State × Except Exception Word :=
  match l1Lookup pa s with
  | some b => (emit .l1Hit s, .ok (b.setWidth 64))
  | none =>
    match l1Fill pa (emit .l1Miss s) with
    | .error e => (emit .l1Miss s, .error e)
    | .ok (t, b) => (t, .ok (b.setWidth 64))

/-- R182: `read(va)`, translate and then read_phys; a failed translation ends it before any L1 access. -/
def readOp (va : VirtAddr) (s : State) : State × Except Exception Word :=
  match translateOp va s with
  | (t, .error e) => (t, .error e)
  | (t, .ok pa) => readPhysOp pa t

/-- READ (R182). -/
def execRead (va : VirtAddr) (s : State) : Host.Outcome State Fault Refusal :=
  whenRunning s (perform (readOp va) s)

/-- READ_PHYS (R183). -/
def execReadPhys (pa : PhysAddr) (s : State) : Host.Outcome State Fault Refusal :=
  whenRunning s (perform (readPhysOp pa) s)

end Sys2Proof.Machine
end

