-- ==== Sys2Proof/Machine/Tables.lean ====
section
/-! DEFINITION. The page-table edits (44_machine_operations R184, R185): MAP_PAGE and UNMAP_PAGE. They write memory only; the
TLB and the L1 are not touched (20_memory R51, R52). -/

namespace Sys2Proof.Machine

/-- A table write as the body of an operation, with DATA 0 (R64). -/
def editOp (tableLoc : PhysAddr) (index : TableIndex) (e : Word) (s : State) : State × Except Exception Word :=
  match tableWrite s tableLoc index e with
  | .ok t => (t, .ok 0#64)
  | .error x => (s, .error x)

/-- MAP_PAGE (R184). -/
def execMapPage (tableLoc : PhysAddr) (index : TableIndex) (target : PhysAddr) (s : State) :
    Host.Outcome State Fault Refusal :=
  whenRunning s (whenAligned tableLoc (perform (editOp tableLoc index (newPresent target)) s))

/-- UNMAP_PAGE (R185). -/
def execUnmapPage (tableLoc : PhysAddr) (index : TableIndex) (s : State) : Host.Outcome State Fault Refusal :=
  whenRunning s (whenAligned tableLoc (perform (editOp tableLoc index newUnmapped) s))

end Sys2Proof.Machine
end

