-- ==== Sys2Proof/Machine/Dispatch.lean ====
section
/-! DEFINITION. One arm per constructor of `Instr` (30_encoding R63). -/

namespace Sys2Proof.Machine

def exec (i : Instr) (s : State) : Host.Outcome State Fault Refusal :=
  match i with
  | .translate va => Sys2Proof.Machine.execTranslate va s
  | .read va => Sys2Proof.Machine.execRead va s
  | .readPhys pa => Sys2Proof.Machine.execReadPhys pa s
  | .mapPage tableLoc index target => Sys2Proof.Machine.execMapPage tableLoc index target s
  | .unmapPage tableLoc index => Sys2Proof.Machine.execUnmapPage tableLoc index s
  | .invalidateTlb => Sys2Proof.Machine.execInvalidateTlb s
  | .invalidateCache => Sys2Proof.Machine.execInvalidateCache s
  | .reserved upper a b => Sys2Proof.Machine.execReserved upper a b s

end Sys2Proof.Machine
end

