-- ==== Sys2Proof/Machine/Requests.lean ====
section
/-! DEFINITION. What the block does with the request channel: serve a request (30_encoding R60, R67, R71), or wait for one
(70_reset_and_hazards R242). -/

namespace Sys2Proof.Machine

/-- R60, R67: decode a request and run its operation to completion, or refuse it (log entry 6). -/
def serve (r : Request) (s : State) : Host.Outcome State Fault Refusal :=
  match decode r with
  | .error why => .refused (.illFormed why)
  | .ok i => exec i s

/-- With no request waiting the block waits (R242; log entry 3), or stays halted for good (60 R224: a fault state; log entry
5). -/
def idle (s : State) : Host.Outcome State Fault Refusal := if s.halted then .fault .halted else .next s

end Sys2Proof.Machine
end

