-- ==== Sys2Proof/Machine/Step.lean ====
section
/-! DEFINITION. One step: the block takes the next request of its channel and serves it (00_scope R5, 30_encoding R60). -/

namespace Sys2Proof.Machine

/-- The request channel is a list, the next request first (log entry 2). -/
def step (s : State) : Host.Outcome State Fault Refusal :=
  match s.requests with
  | [] => idle s
  | r :: rest => serve r { s with requests := rest }

/-- The requester issues this request next, before those it had still to issue: the block loads no program, so this stands for
the requester's side of the request channel (log entry 2). -/
def State.withFetchWord (s : State) (nbits w : Nat) : State :=
  { s with requests := requestOfTableWord nbits w :: s.requests }

end Sys2Proof.Machine
end

