-- ==== Sys2Proof/Machine/Asm.lean ====
section
/-! DEFINITION. The assembler syntax of 30_encoding R70: a program is a list of requests, one per line; each line assembles to
CMD, A, B by R61 to R64, with omitted operands 0. The lexical details R70 leaves open are log entry 10. -/

namespace Sys2Proof.Machine

/-- Why a line does not assemble. -/
inductive AsmError where
  /-- The first word of the line is none of the seven operation names. -/
  | unknownMnemonic
  /-- Not the operands R70 shows for the operation. -/
  | wrongOperands
  /-- An operand is neither a hex nor a decimal integer. -/
  | badNumber
  /-- An address of 2^64 or more, or an index of 512 or more. -/
  | outOfRange
deriving DecidableEq, Repr

/-- Split a text at every occurrence of a character. -/
def splitChars (sep : Char) : List Char → List (List Char)
  | [] => [[]]
  | c :: rest =>
    match splitChars sep rest with
    | [] => [[c]]
    | part :: parts => if c = sep then [] :: part :: parts else (c :: part) :: parts

/-- White space inside a line. -/
def isBlank (c : Char) : Bool := c == ' ' || c == '\t' || c == '\r'

/-- A text without the white space at its two ends. -/
def trimChars (l : List Char) : List Char := ((l.dropWhile isBlank).reverse.dropWhile isBlank).reverse

/-- "A `;` starts a comment" (R70). -/
def stripComment (l : List Char) : List Char := l.takeWhile fun c => c != ';'

/-- The value of a digit of base 16 or less. -/
def digitValue (c : Char) : Option Nat :=
  if '0' ≤ c ∧ c ≤ '9' then some (c.toNat - '0'.toNat)
  else if 'a' ≤ c ∧ c ≤ 'f' then some (c.toNat - 'a'.toNat + 10)
  else if 'A' ≤ c ∧ c ≤ 'F' then some (c.toNat - 'A'.toNat + 10)
  else none

/-- Digits of a base, most significant first. R9 says of `_` only that it is an optional digit separator. DESIGN CHOICE (log entry
10): after the first digit it is skipped wherever it stands, so a doubled and a trailing `_` are accepted. -/
def digits (base : Nat) : Nat → List Char → Option Nat
  | acc, [] => some acc
  | acc, '_' :: rest => digits base acc rest
  | acc, c :: rest =>
    match digitValue c with
    | some d => if d < base then digits base (acc * base + d) rest else none
    | none => none

/-- "operands are hex or decimal integers" (R70), hex with `0x` (R9). DESIGN CHOICE (log entry 10): a `_` before the first digit is
an error. -/
def number : List Char → Option Nat
  | [] => none
  | '_' :: _ => none
  | '0' :: 'x' :: '_' :: _ => none
  | '0' :: 'x' :: c :: rest => digits 16 0 (c :: rest)
  | c :: rest => digits 10 0 (c :: rest)

/-- A 64-bit operand. -/
def wordOperand (l : List Char) : Except AsmError Word :=
  match number l with
  | none => .error .badNumber
  | some n => if n < 2 ^ 64 then .ok (BitVec.ofNat 64 n) else .error .outOfRange

/-- A table index, 0..511. -/
def indexOperand (l : List Char) : Except AsmError TableIndex :=
  match number l with
  | none => .error .badNumber
  | some n => if n < 512 then .ok (BitVec.ofNat 9 n) else .error .outOfRange

/-- A line with one address. -/
def oneOperand (op : BitVec 3) : List (List Char) → Except AsmError Request
  | [x] =>
    match wordOperand x with
    | .ok a => .ok ⟨commandWord 0#9 op, a, 0#64⟩
    | .error e => .error e
  | _ => .error .wrongOperands

/-- A line of `map_page`: `<table_loc>, <index>, <target>`. -/
def mapOperands : List (List Char) → Except AsmError Request
  | [x, y, z] =>
    match wordOperand x, indexOperand y, wordOperand z with
    | .ok a, .ok i, .ok b => .ok ⟨commandWord i 3#3, a, b⟩
    | .error e, _, _ => .error e
    | _, .error e, _ => .error e
    | _, _, .error e => .error e
  | _ => .error .wrongOperands

/-- A line of `unmap_page`: `<table_loc>, <index>`. -/
def unmapOperands : List (List Char) → Except AsmError Request
  | [x, y] =>
    match wordOperand x, indexOperand y with
    | .ok a, .ok i => .ok ⟨commandWord i 4#3, a, 0#64⟩
    | .error e, _ => .error e
    | _, .error e => .error e
  | _ => .error .wrongOperands

/-- A line with no operand. -/
def noOperand (op : BitVec 3) : List (List Char) → Except AsmError Request
  | [] => .ok ⟨commandWord 0#9 op, 0#64, 0#64⟩
  | _ => .error .wrongOperands

/-- The operands of a line, between commas. -/
def operandTexts (l : List Char) : List (List Char) :=
  if trimChars l = [] then [] else (splitChars ',' l).map trimChars

/-- The seven operation names of R70 and what each line assembles to. -/
def assembleNamed (name : List Char) (args : List (List Char)) : Except AsmError Request :=
  if name = "translate".toList then oneOperand 0#3 args
  else if name = "read".toList then oneOperand 1#3 args
  else if name = "read_phys".toList then oneOperand 2#3 args
  else if name = "map_page".toList then mapOperands args
  else if name = "unmap_page".toList then unmapOperands args
  else if name = "invalidate_tlb".toList then noOperand 5#3 args
  else if name = "invalidate_cache".toList then noOperand 6#3 args
  else .error .unknownMnemonic

/-- One line: a request, or none for a line that is blank but for a comment. -/
def assembleLine (line : List Char) : Except AsmError (Option Request) :=
  let l := trimChars (stripComment line)
  if l = [] then .ok none
  else
    match assembleNamed (l.takeWhile fun c => !isBlank c) (operandTexts (l.dropWhile fun c => !isBlank c)) with
    | .ok r => .ok (some r)
    | .error e => .error e

/-- R70: a program, its lines in order. -/
def assembleLines : List (List Char) → Except AsmError (List Request)
  | [] => .ok []
  | line :: rest =>
    match assembleLine line, assembleLines rest with
    | .ok (some r), .ok rs => .ok (r :: rs)
    | .ok none, .ok rs => .ok rs
    | .error e, _ => .error e
    | _, .error e => .error e

/-- R70: a program's text. -/
def assemble (text : String) : Except AsmError (List Request) := assembleLines (splitChars '\n' text.toList)

end Sys2Proof.Machine
end

