-- ==== Sys2Proof/Machine/WalkStates.lean ====
section
/-! DEFINITION. The translation state machine of 44_machine_operations R188, one transition at a time: `TLB-check`, then hit
(done) or miss, which goes Level1, Level2, Level3, Level4, done (insert and return); PageFault; and the terminal state Fatal
the spec adds. None of these states persists between operations, so `State` holds none of them: `translateOp` runs the whole
machine in one transaction, and a statement says that the two agree. -/

namespace Sys2Proof.Machine

/-- The states of R188. A level carries the address of its table. -/
inductive TransState where
  | tlbCheck
  | walking (k : Level) (t : PhysAddr)
  | done (pa : PhysAddr)
  | pageFault
  | fatal
deriving DecidableEq, Repr

/-- The level after a level, none after the last. -/
def nextLevel : Level → Option Level
  | .level1 => some .level2
  | .level2 => some .level3
  | .level3 => some .level4
  | .level4 => none

/-- One transition of R188. The three terminal states stay. -/
def transStep (va : VirtAddr) : TransState → State → TransState × State
  | .tlbCheck, s =>
    match tlbLookup va s with
    | (some pa, t) => (.done pa, emit .tlbHit t)
    | (none, t) => (.walking .level1 t.cr3, emit .tlbMiss t)
  | .walking k t, s =>
    match tableRead s t (vpnLevel va k) with
    | .error _ => (.fatal, s)
    | .ok e =>
      if isPresent e then
        match nextLevel k with
        | some next => (.walking next (physAddr e), s)
        | none => (.done (withOffset (physAddr e) va), tlbInsert va (withOffset (physAddr e) va) s)
      else (.pageFault, s)
  | q, s => (q, s)

/-- `n` transitions. -/
def transRun (va : VirtAddr) : Nat → TransState → State → TransState × State
  | 0, q, s => (q, s)
  | n + 1, q, s => transRun va n (transStep va q s).1 (transStep va q s).2

end Sys2Proof.Machine
end

