-- ==== Sys2Proof/Safety.lean ====
section
/-! DEFINITION. What counts as a safe run, the invariants of the block (10_state R30 to R33), and the terms in which claims
about an operation's operands are stated. -/

namespace Sys2Proof.Machine

/-- A state from which the block can still answer: "A model treats a halted state as a fault state" (R224). -/
abbrev Safe (s : State) : Prop := s.halted = false

/-! ## Invariants

In a state that meets none of these, which no run reaches, the operations do what their pseudocode says (log entry 8). -/

/-- The canonical form of memory, and no byte outside the block's memory (R23). -/
structure MemoryInv (s : State) : Prop where
  wf : Memory.wf s.mem = true
  inside : ∀ c ∈ s.mem, c.1 < memBytes s

/-- What every construction gives and no operation changes (R7, R22, R240). -/
structure ParamsInv (s : State) : Prop where
  memMB : 1 ≤ s.memMB
  ctrMax : 1 ≤ s.tlbCtrMax
  cr3 : frameAligned s.cr3 = true

/-- R30: no two valid ways of a TLB set have the same tag. -/
def TlbTagsUnique (s : State) : Prop :=
  ∀ (i : Fin 128) (v w : Fin 4), s.tlb[i][v].valid = true → s.tlb[i][w].valid = true →
    s.tlb[i][v].tag = s.tlb[i][w].tag → v = w

/-- R24: the shape of every TLB way: of the tag only bits 51:7 can be non-zero, and the counter is at most TLB_CTR_MAX. -/
def TlbWaysInRange (s : State) : Prop :=
  ∀ (i : Fin 128) (w : Fin 4), s.tlb[i][w].tag.toNat < 2 ^ 52 ∧ s.tlb[i][w].tag &&& 127#64 = 0#64 ∧
    s.tlb[i][w].ctr ≤ s.tlbCtrMax

/-- R31: no two valid ways of an L1 set have the same tag. -/
def L1TagsUnique (s : State) : Prop :=
  ∀ (i : Fin 64) (v w : Fin 8), s.l1[i][v].valid = true → s.l1[i][w].valid = true →
    s.l1[i][v].tag = s.l1[i][w].tag → v = w

/-- R153: "a valid line was in bounds when it was filled". -/
def L1LinesInside (s : State) : Prop :=
  ∀ (i : Fin 64) (w : Fin 8), s.l1[i][w].valid = true →
    s.l1[i][w].tag.toNat * 4096 + i.val * 64 + 64 ≤ memBytes s

/-- R32: every 8-byte word of memory at a multiple of 8 is 0 or a present PTE, and every byte outside memory is 0. -/
def MemoryHoldsPtes (s : State) : Prop :=
  (∀ k : Nat, loadBytes s.mem (8 * k) 8 = 0 ∨ ∃ x : Word, loadBytes s.mem (8 * k) 8 = ((x &&& ~~~0xFFF#64) ||| 1#64).toNat) ∧
    ∀ a : Nat, memBytes s ≤ a → readByte s.mem a = 0#8

/-- The invariant of the block. -/
structure Inv (s : State) : Prop where
  memory : MemoryInv s
  params : ParamsInv s
  tlb : TlbWaysInRange s
  l1 : L1LinesInside s

/-! ## Hits and misses -/

/-- R123: way `w` is the first way of the set of `va` that is valid and has its tag. -/
abbrev TlbHits (s : State) (va : VirtAddr) (w : Fin 4) : Prop :=
  ((tlbSetOf s va)[w].valid = true ∧ (tlbSetOf s va)[w].tag = tlbTag (vpn va)) ∧
    ∀ v : Fin 4, v < w → ¬((tlbSetOf s va)[v].valid = true ∧ (tlbSetOf s va)[v].tag = tlbTag (vpn va))

/-- R123: no way of the set of `va` is valid and has its tag. -/
abbrev TlbMisses (s : State) (va : VirtAddr) : Prop :=
  ∀ v : Fin 4, ¬((tlbSetOf s va)[v].valid = true ∧ (tlbSetOf s va)[v].tag = tlbTag (vpn va))

/-- R153: way `w` is the first way of the set of `pa` that is valid and has its tag. -/
abbrev L1Hits (s : State) (pa : PhysAddr) (w : Fin 8) : Prop :=
  ((l1SetOf s pa)[w].valid = true ∧ (l1SetOf s pa)[w].tag = l1Tag pa) ∧
    ∀ v : Fin 8, v < w → ¬((l1SetOf s pa)[v].valid = true ∧ (l1SetOf s pa)[v].tag = l1Tag pa)

/-- R153: no way of the set of `pa` is valid and has its tag. -/
abbrev L1Misses (s : State) (pa : PhysAddr) : Prop :=
  ∀ v : Fin 8, ¬((l1SetOf s pa)[v].valid = true ∧ (l1SetOf s pa)[v].tag = l1Tag pa)

/-! ## The walk, level by level (R180), written out -/

/-- The table at `t` lies inside memory (R107). -/
abbrev TableInside (s : State) (t : PhysAddr) : Prop := t.toNat + 4096 ≤ memBytes s

/-- Entry `i` of the table at `t` as memory holds it (R106). -/
def tableEntry (s : State) (t : PhysAddr) (i : TableIndex) : Word :=
  BitVec.ofNat 64 (loadBytes s.mem (t.toNat + 8 * i.toNat) 8)

/-- The level-1 entry of `va`. -/
def entry1 (s : State) (va : VirtAddr) : Word := tableEntry s s.cr3 (vpn1 va)

/-- The level-2 entry of `va`. -/
def entry2 (s : State) (va : VirtAddr) : Word := tableEntry s (physAddr (entry1 s va)) (vpn2 va)

/-- The level-3 entry of `va`. -/
def entry3 (s : State) (va : VirtAddr) : Word := tableEntry s (physAddr (entry2 s va)) (vpn3 va)

/-- The level-4 entry of `va`. -/
def entry4 (s : State) (va : VirtAddr) : Word := tableEntry s (physAddr (entry3 s va)) (vpn4 va)

/-- The walk reaches the level-2 table of `va`: the root table is inside memory and its entry is present. -/
abbrev Reaches2 (s : State) (va : VirtAddr) : Prop := TableInside s s.cr3 ∧ isPresent (entry1 s va) = true

/-- The walk reaches the level-3 table of `va`. -/
abbrev Reaches3 (s : State) (va : VirtAddr) : Prop :=
  Reaches2 s va ∧ TableInside s (physAddr (entry1 s va)) ∧ isPresent (entry2 s va) = true

/-- The walk reaches the level-4 table of `va`. -/
abbrev Reaches4 (s : State) (va : VirtAddr) : Prop :=
  Reaches3 s va ∧ TableInside s (physAddr (entry2 s va)) ∧ isPresent (entry3 s va) = true

/-- All four levels are present: `va` is mapped. -/
abbrev Mapped (s : State) (va : VirtAddr) : Prop :=
  Reaches4 s va ∧ TableInside s (physAddr (entry3 s va)) ∧ isPresent (entry4 s va) = true

/-- The first level that fails has its table inside memory and its entry not present (R221). -/
abbrev WalkPageFaults (s : State) (va : VirtAddr) : Prop :=
  (TableInside s s.cr3 ∧ isPresent (entry1 s va) = false) ∨
  (Reaches2 s va ∧ TableInside s (physAddr (entry1 s va)) ∧ isPresent (entry2 s va) = false) ∨
  (Reaches3 s va ∧ TableInside s (physAddr (entry2 s va)) ∧ isPresent (entry3 s va) = false) ∨
  (Reaches4 s va ∧ TableInside s (physAddr (entry3 s va)) ∧ isPresent (entry4 s va) = false)

/-- The first level that fails has its table outside memory (R223). -/
abbrev WalkLeavesMemory (s : State) (va : VirtAddr) : Prop :=
  ¬TableInside s s.cr3 ∨ (Reaches2 s va ∧ ¬TableInside s (physAddr (entry1 s va))) ∨
  (Reaches3 s va ∧ ¬TableInside s (physAddr (entry2 s va))) ∨
  (Reaches4 s va ∧ ¬TableInside s (physAddr (entry3 s va)))

/-! ## What a translation and a byte read give -/

/-- `va` translates to `pa`: by a TLB hit, or by a walk of four present levels (R181). -/
abbrev Translates (s : State) (va : VirtAddr) (pa : PhysAddr) : Prop :=
  (∃ w, TlbHits s va w ∧ pa = withOffset (tlbSetOf s va)[w].pa va) ∨
    (TlbMisses s va ∧ Mapped s va ∧ pa = withOffset (physAddr (entry4 s va)) va)

/-- The byte at `pa` reads as `b`: from a line of the L1, or from memory on a miss inside it (R183). -/
abbrev ReadsByte (s : State) (pa : PhysAddr) (b : Byte) : Prop :=
  (∃ w, L1Hits s pa w ∧ b = (l1SetOf s pa)[w].line[l1Byte pa]) ∨
    (L1Misses s pa ∧ pa.toNat < memBytes s ∧ b = readByte s.mem pa.toNat)

/-- The operations of a list one after another, as far as each gives a next state. -/
def execAll : List Instr → State → Host.Outcome State Fault Refusal
  | [], s => .next s
  | i :: rest, s =>
    match exec i s with
    | .next t => execAll rest t
    | o => o

/-! ## The history of the TLB counters (R33) -/

/-- R33 for a record of the past: `hits i w` is the number of hits on way `w` of set `i` since the last insert into the set,
and `last i` the victim of that insert. Every valid way's counter is `min(h + i, TLB_CTR_MAX)`. -/
def CountersFollow (s : State) (hits : Fin 128 → Fin 4 → Nat) (last : Fin 128 → Option (Fin 4)) : Prop :=
  ∀ (i : Fin 128) (w : Fin 4), s.tlb[i][w].valid = true →
    s.tlb[i][w].ctr = min (hits i w + if last i = some w then 1 else 0) s.tlbCtrMax

/-- The record after one more hit on way `w` of set `i`. -/
def countHit (hits : Fin 128 → Fin 4 → Nat) (i : Fin 128) (w : Fin 4) : Fin 128 → Fin 4 → Nat :=
  fun j v => if j = i ∧ v = w then hits j v + 1 else hits j v

/-- The record of hits after an insert into set `i`. -/
def forgetHits (hits : Fin 128 → Fin 4 → Nat) (i : Fin 128) : Fin 128 → Fin 4 → Nat :=
  fun j v => if j = i then 0 else hits j v

/-- The record of victims after an insert into set `i`. -/
def recordVictim (last : Fin 128 → Option (Fin 4)) (i : Fin 128) (w : Fin 4) : Fin 128 → Option (Fin 4) :=
  fun j => if j = i then some w else last j

end Sys2Proof.Machine
end

