-- ==== Sys2Proof/Certificates/Slice0/Obligations.lean ====
section
/-! DEFINITION. The statements for the provers. Every one about a state holds for every state that meets its hypotheses, hence
for every MEM_MB, CR3_INIT and TLB_CTR_MAX; none rests on a value of the log entries but where its docstring says so. -/

open Sys2Proof Sys2Proof.Machine

/-! ## Requests and decoding -/

/-- R61 to R64, R71: decoding the request of a well-formed instruction gives the instruction back, with every operand. -/
def Obligations.DecodeEncodeGivesBack : Prop :=
  ∀ i : Instr, i.wellFormed = true → decode (encode i) = .ok i

/-- R61 to R64, R71: a request that decodes is the request of the instruction it decodes to, so no two requests share a
meaning. -/
def Obligations.EncodeDecodeGivesBack : Prop :=
  ∀ (r : Request) (i : Instr), decode r = .ok i → i.wellFormed = true ∧ encode i = r

/-- R63: the command word of an instruction belongs to the row of the opcode table the instruction stands for, and to no
other row. -/
def Obligations.CommandWordBelongsToOneRow : Prop :=
  ∀ (i : Instr) (row : TableRow), row ∈ tableRows →
    (row.owns (encode i).cmd = true ↔ tableRows[(rowOf i).val]? = some row)

/-- R67: a request is refused, with no effect and no response, exactly when one of the rule's six conditions holds. -/
def Obligations.StepRefusesExactlyTheListedRequests : Prop :=
  ∀ (s : State) (r : Request) (rest : List Request), s.requests = r :: rest →
    ((∃ why, step s = .refused why) ↔
      r.cmd.extractLsb' 0 3 = 7#3 ∨
      r.cmd.extractLsb' 3 4 ≠ 0#4 ∨
      (r.cmd.extractLsb' 7 9 ≠ 0#9 ∧ r.cmd.extractLsb' 0 3 ≠ 3#3 ∧ r.cmd.extractLsb' 0 3 ≠ 4#3) ∨
      (r.a ≠ 0#64 ∧ (r.cmd.extractLsb' 0 3 = 5#3 ∨ r.cmd.extractLsb' 0 3 = 6#3)) ∨
      (r.b ≠ 0#64 ∧ r.cmd.extractLsb' 0 3 ≠ 3#3) ∨
      (r.a.extractLsb' 0 12 ≠ 0#12 ∧ (r.cmd.extractLsb' 0 3 = 3#3 ∨ r.cmd.extractLsb' 0 3 = 4#3)) ∨
      s.halted = true)

/-- R60, R71: a step runs the operation its request decodes to, with the request taken from the channel. What goes beyond those
rules is the model's choice: a request that does not decode is refused under the name `illFormed`, also while the block is halted
(R67 and R225 refuse it either way; the name, and that it goes before `halted`, are log entry 6); with no request the block waits
in an unchanged state (R242, log entry 3) or is stuck in its fault state (R224, log entry 5); and `withFetchWord` puts a request
first in the channel (log entry 2), laid out in one number as log entry 9 says. -/
def Obligations.StepRunsTheDecodedRequest : Prop :=
  (∀ (s : State) (r : Request) (rest : List Request) (i : Instr), s.requests = r :: rest → decode r = .ok i →
    step s = exec i { s with requests := rest }) ∧
  (∀ (s : State) (r : Request) (rest : List Request) (why : Malformed), s.requests = r :: rest → decode r = .error why →
    step s = .refused (.illFormed why)) ∧
  (∀ s : State, s.requests = [] → s.halted = false → step s = .next s) ∧
  (∀ s : State, s.requests = [] → s.halted = true → step s = .fault .halted) ∧
  (∀ (s : State) (nbits w : Nat) (i : Instr), decodeTableWord nbits w = some i → step (s.withFetchWord nbits w) = exec i s)

/-- R61, R63, R71: words written out from the encodings decode to their operations, and the refused examples of R71 do not decode.
The spec says of a refused word only that it is refused. The names of the refusals are the model's choice (log entry 6); so is that
a word of the reserved row decodes, to the instruction `reserved`, and is refused in its meaning (log entry 7), where R67 and 95
§2.6 list it as refused. -/
def Obligations.SpecWordsDecode : Prop :=
  decode ⟨0b0000010100000011#16, 0xF000#64, 0x11000#64⟩ = .ok (.mapPage 0xF000#64 10#9 0x11000#64) ∧
  decode ⟨0b1111111110000100#16, 0x13000#64, 0#64⟩ = .ok (.unmapPage 0x13000#64 511#9) ∧
  decode ⟨0b0000000000000000#16, 0x50000000123#64, 0#64⟩ = .ok (.translate 0x50000000123#64) ∧
  decode ⟨0b0000000000000001#16, 0x50000003002#64, 0#64⟩ = .ok (.read 0x50000003002#64) ∧
  decode ⟨0b0000000000000010#16, 0xF051#64, 0#64⟩ = .ok (.readPhys 0xF051#64) ∧
  decode ⟨0b0000000000000101#16, 0#64, 0#64⟩ = .ok .invalidateTlb ∧
  decode ⟨0b0000000000000110#16, 0#64, 0#64⟩ = .ok .invalidateCache ∧
  decode ⟨0b1111111111111111#16, 5#64, 6#64⟩ = .ok (.reserved 0b1111111111111#13 5#64 6#64) ∧
  decode ⟨0x0083#16, 0xF008#64, 0#64⟩ = .error .tableLocMisaligned ∧
  decode ⟨0x0008#16, 0#64, 0#64⟩ = .error .rsvNotZero ∧
  decode ⟨0x0080#16, 0#64, 0#64⟩ = .error .idxNotZero ∧
  decode ⟨0x0005#16, 0x1000#64, 0#64⟩ = .error .aNotZero ∧
  decode ⟨0x0000#16, 0#64, 1#64⟩ = .error .bNotZero

/-! ## Addresses and entries -/

/-- R80 to R86: the fields of an address put together are the address. The two functions that build a physical address give
the frame and the offset they were given. -/
def Obligations.AddressFieldsRecombine : Prop :=
  (∀ va : VirtAddr, va.extractLsb' 0 48 = vpn1 va ++ vpn2 va ++ vpn3 va ++ vpn4 va ++ offset va) ∧
  (∀ va : VirtAddr, va = vpn va ++ offset va) ∧
  (∀ pa : PhysAddr, physFrom ((frame pa).setWidth 64) ((offset pa).setWidth 64) = pa) ∧
  (∀ pa off : Word, frame (withOffset pa off) = frame pa ∧ offset (withOffset pa off) = offset off) ∧
  (∀ fr off : Word, frame (physFrom fr off) = fr.extractLsb' 0 52 ∧ offset (physFrom fr off) = offset off)

/-- R121: the set and the tag determine the VPN. R151, R152: the set and the tag of a physical address determine its 64-byte
block, and the byte select places the address in it. -/
def Obligations.SelectsDetermineTheAddress : Prop :=
  (∀ u v : Vpn, tlbSet u = tlbSet v → tlbTag u = tlbTag v → u = v) ∧
  (∀ p q : PhysAddr, l1Set p = l1Set q → l1Tag p = l1Tag q → l1Base p = l1Base q) ∧
  (∀ p : PhysAddr, (l1Base p).toNat = (l1Tag p).toNat * 4096 + (l1Set p).val * 64 ∧
    p.toNat = (l1Base p).toNat + (l1Byte p).val)

/-- R101 to R105: a present entry is present and holds the frame address of its target, an unmapped entry is not present, a
frame address is frame-aligned, and the reserved bits 11:1 of an entry change neither query. -/
def Obligations.PteQueriesReadConstructors : Prop :=
  (∀ x : PhysAddr, isPresent (newPresent x) = true ∧ physAddr (newPresent x) = x &&& ~~~0xFFF#64 ∧
    newPresent x &&& 0xFFF#64 = 1#64) ∧
  (isPresent newUnmapped = false ∧ newUnmapped = 0#64) ∧
  (∀ e : Word, frameAligned (physAddr e) = true) ∧
  (∀ e r : Word, isPresent (e ^^^ (r &&& 0xFFE#64)) = isPresent e ∧ physAddr (e ^^^ (r &&& 0xFFE#64)) = physAddr e)

/-- R103: two targets give the same present entry exactly when they lie in the same frame. -/
def Obligations.PteFrameIsBits63To12 : Prop :=
  ∀ x y : PhysAddr, newPresent x = newPresent y ↔ x.extractLsb' 12 52 = y.extractLsb' 12 52

/-! ## Memory -/

/-- R40: `MemRead(addr, n)` checks its bounds exactly and then gives the little-endian sum of its `n` bytes. -/
def Obligations.MemReadIsTheLittleEndianSum : Prop :=
  ∀ (s : State) (addr n : Nat),
    (addr + n > s.memMB * 2 ^ 20 → memRead s addr n = .error .outOfBounds) ∧
    (addr + n ≤ s.memMB * 2 ^ 20 →
      memRead s addr n = .ok ((List.range n).map fun k => (readByte s.mem (addr + k)).toNat * 2 ^ (8 * k)).sum)

/-- R41: `MemWrite(addr, n, v)` checks its bounds exactly; then byte `addr + k` is `(v >> 8k) & 0xFF` for `k` in `0..n-1`, every
other byte is as before, the canonical form is kept and nothing but memory changes. -/
def Obligations.MemWriteStoresLittleEndian : Prop :=
  ∀ (s : State) (addr n v : Nat),
    (addr + n > s.memMB * 2 ^ 20 → memWrite s addr n v = .error .outOfBounds) ∧
    (addr + n ≤ s.memMB * 2 ^ 20 → Memory.wf s.mem = true →
      ∃ m, memWrite s addr n v = .ok { s with mem := m } ∧ Memory.wf m = true ∧
        (∀ k, k < n → readByte m (addr + k) = BitVec.ofNat 8 (v / 2 ^ (8 * k))) ∧
        (∀ a, (a < addr ∨ addr + n ≤ a) → readByte m a = readByte s.mem a))

/-! ## The walk and translation -/

/-- R180: the page walk takes the four levels in order from `cr3`. If all four entries are present it gives the frame address
the level-4 entry holds; it page-faults at the first level whose entry is not present, and is Fatal at the first level whose
table lies outside memory, which is checked first. -/
def Obligations.PageWalkTakesFourLevels : Prop :=
  ∀ (s : State) (va : VirtAddr),
    (Mapped s va → pageWalk s va = .ok (physAddr (entry4 s va))) ∧
    (WalkPageFaults s va → pageWalk s va = .error .pageFault) ∧
    (WalkLeavesMemory s va → pageWalk s va = .error .outOfBounds) ∧
    (Mapped s va ∨ WalkPageFaults s va ∨ WalkLeavesMemory s va)

/-- R180, R85: bits 63:48 and 11:0 of the address do not affect the walk. -/
def Obligations.WalkReadsBits47To12Only : Prop :=
  ∀ (s : State) (u v : VirtAddr), u.extractLsb' 12 36 = v.extractLsb' 12 36 → pageWalk s u = pageWalk s v

/-- R181 with R123, R125, R222, R224: TRANSLATE, clause by clause. A hit answers with the cached frame and this address's
offset and bumps the hit way's counter. A miss of a mapped address answers with the walk's frame and the offset and inserts
it. A miss whose walk page-faults changes nothing, one whose walk leaves memory halts the block. The next state is written out
whole, so everything not named is unchanged. -/
def Obligations.TranslateFollowsItsRule : Prop :=
  ∀ (s : State) (va : VirtAddr), s.halted = false →
    (∀ w, TlbHits s va w →
      exec (.translate va) s = .next { s with
        tlb := s.tlb.set (tlbSet (vpn va)).val
          ((tlbSetOf s va).set w.val
            { (tlbSetOf s va)[w] with ctr := min ((tlbSetOf s va)[w].ctr + 1) s.tlbCtrMax } w.isLt)
          (tlbSet (vpn va)).isLt
        response := some ⟨.ok, ((tlbSetOf s va)[w].pa &&& ~~~0xFFF#64) ||| (va &&& 0xFFF#64)⟩
        events := [.tlbHit] }) ∧
    (TlbMisses s va → Mapped s va →
      exec (.translate va) s = .next { s with
        tlb := s.tlb.set (tlbSet (vpn va)).val
          (insertWay s.tlbCtrMax (tlbSetOf s va) (tlbTag (vpn va)) ((entry4 s va &&& ~~~0xFFF#64) ||| (va &&& 0xFFF#64)))
          (tlbSet (vpn va)).isLt
        response := some ⟨.ok, (entry4 s va &&& ~~~0xFFF#64) ||| (va &&& 0xFFF#64)⟩
        events := [.tlbMiss] }) ∧
    (TlbMisses s va → WalkPageFaults s va →
      exec (.translate va) s = .next { s with response := some ⟨.pageFault, 0#64⟩, events := [.tlbMiss] }) ∧
    (TlbMisses s va → WalkLeavesMemory s va →
      exec (.translate va) s = .next { s with
        halted := true, response := some ⟨.fatal, 0#64⟩, events := [.tlbMiss] })

/-- R181, first and fourth corner cases: after a translation that answered, a second one of an address with the same VPN
answers with the same frame and its own offset, with a TLB hit. -/
def Obligations.SecondTranslationHits : Prop :=
  ∀ (s t : State) (va vb : VirtAddr) (pa : PhysAddr), exec (.translate va) s = .next t →
    t.response = some ⟨.ok, pa⟩ → vpn vb = vpn va →
    ∃ u, exec (.translate vb) t = .next u ∧ u.response = some ⟨.ok, withOffset pa vb⟩ ∧ u.events = [.tlbHit] ∧ u.mem = s.mem

/-- R188: the translation state machine, run from its TLB check, ends after at most five transitions in the state that answers
as `translate` does, and leaves the state `translate` leaves. -/
def Obligations.TranslationStatesAgree : Prop :=
  ∀ (va : VirtAddr) (s : State),
    (transRun va 5 .tlbCheck s).2 = (translateOp va s).1 ∧
    (transRun va 5 .tlbCheck s).1 =
      (match (translateOp va s).2 with
        | .ok pa => TransState.done pa
        | .error .pageFault => TransState.pageFault
        | .error .outOfBounds => TransState.fatal)

/-! ## The TLB -/

/-- R124: the victim is the first invalid way; with none invalid it is the way with the lowest counter, the lowest index among
ties. -/
def Obligations.TlbVictimIsFirstInvalidOrLowestCounter : Prop :=
  ∀ ways : TlbWays,
    ((∃ w : Fin 4, ways[w].valid = false) →
      ways[tlbVictim ways].valid = false ∧ ∀ w : Fin 4, w < tlbVictim ways → ways[w].valid = true) ∧
    ((∀ w : Fin 4, ways[w].valid = true) →
      (∀ w : Fin 4, ways[tlbVictim ways].ctr ≤ ways[w].ctr) ∧
        ∀ w : Fin 4, w < tlbVictim ways → ways[tlbVictim ways].ctr < ways[w].ctr)

/-- R125: an insert clears all four counters of the set, and makes the victim valid with the tag, the physical address and a
counter of `sat_inc(0)`; no other set, and nothing but the TLB, changes. -/
def Obligations.TlbInsertClearsTheWholeSet : Prop :=
  ∀ (s : State) (va : VirtAddr) (pa : PhysAddr),
    (∀ w : Fin 4, (tlbInsert va pa s).tlb[tlbSet (vpn va)][w] =
      if w = tlbVictim s.tlb[tlbSet (vpn va)] then
        { valid := true, tag := tlbTag (vpn va), ctr := min (0 + 1) s.tlbCtrMax, pa := pa }
      else { s.tlb[tlbSet (vpn va)][w] with ctr := 0 }) ∧
    (∀ i : Fin 128, i ≠ tlbSet (vpn va) → (tlbInsert va pa s).tlb[i] = s.tlb[i]) ∧
    tlbInsert va pa s = { s with tlb := (tlbInsert va pa s).tlb }

/-- R128: in a full set where one counter is 1 and the others 0, the next victim is way 0, or way 1 when way 0 has the counter
of 1; the insert leaves a set of the same form. So without hits the victims of a full set alternate between ways 0 and 1. -/
def Obligations.FullTlbSetEvictsWaysZeroAndOne : Prop :=
  ∀ (ways : TlbWays) (j : Fin 4) (ctrMax : Nat) (t : Word) (pa : PhysAddr), 1 ≤ ctrMax →
    (∀ w : Fin 4, ways[w].valid = true ∧ ways[w].ctr = if w = j then 1 else 0) →
    tlbVictim ways = (if j = 0 then 1 else 0) ∧
    ∀ w : Fin 4, (insertWay ctrMax ways t pa)[w].valid = true ∧
      (insertWay ctrMax ways t pa)[w].ctr = if w = tlbVictim ways then 1 else 0

/-- R30: at construction and after every step, no two valid ways of a TLB set have the same tag (that a set has 4 ways is its
type). -/
def Obligations.TlbTagsStayUnique : Prop :=
  (∀ p : Params, TlbTagsUnique (State.ofParams p)) ∧
  ∀ s t : State, TlbTagsUnique s → step s = .next t → TlbTagsUnique t

/-- R33: the counters follow the history of the set: at construction, whatever the history (no way is valid), and after every
operation. A hit counts one more on its way; an insert forgets the hits of its set and records its victim; nothing else but
`invalidate_tlb`, which leaves no valid way, touches a counter. -/
def Obligations.TlbCountersFollowHistory : Prop :=
  (∀ (p : Params) (hits : Fin 128 → Fin 4 → Nat) (last : Fin 128 → Option (Fin 4)),
    CountersFollow (State.ofParams p) hits last) ∧
  ∀ (s t : State) (hits : Fin 128 → Fin 4 → Nat) (last : Fin 128 → Option (Fin 4)), CountersFollow s hits last →
    (∀ (va : VirtAddr) (w : Fin 4), TlbHits s va w → (exec (.translate va) s = .next t ∨ exec (.read va) s = .next t) →
      CountersFollow t (countHit hits (tlbSet (vpn va)) w) last) ∧
    (∀ va : VirtAddr, TlbMisses s va → Mapped s va → (exec (.translate va) s = .next t ∨ exec (.read va) s = .next t) →
      CountersFollow t (forgetHits hits (tlbSet (vpn va)))
        (recordVictim last (tlbSet (vpn va)) (tlbVictim (tlbSetOf s va)))) ∧
    (∀ va : VirtAddr, TlbMisses s va → ¬Mapped s va → (exec (.translate va) s = .next t ∨ exec (.read va) s = .next t) →
      CountersFollow t hits last) ∧
    (∀ i : Instr, (∀ va, i ≠ .translate va) → (∀ va, i ≠ .read va) → exec i s = .next t → CountersFollow t hits last)

/-! ## The L1 and the reads -/

/-- R154: the victim is the last invalid way; with none invalid it is way 0. -/
def Obligations.L1VictimIsLastInvalidOrWayZero : Prop :=
  ∀ ways : L1Ways,
    ((∃ w : Fin 8, ways[w].valid = false) →
      ways[l1Victim ways].valid = false ∧ ∀ w : Fin 8, l1Victim ways < w → ways[w].valid = true) ∧
    ((∀ w : Fin 8, ways[w].valid = true) → l1Victim ways = 0)

/-- R157 with R155: a set whose ways from `n` on are valid and whose ways below `n` are not fills way `n - 1` next, an empty set
way 7, and a full set replaces way 0 and is full again. In every case the filled way is valid and holds the tag and the 64 bytes of
memory at the base of the block, and the other ways are as before. -/
def Obligations.L1SetFillsDownwardThenWayZero : Prop :=
  ∀ (s t : State) (pa : PhysAddr) (b : Byte), l1Fill pa s = .ok (t, b) →
    ∃ block : Line, (∀ k : Fin 64, block[k] = readByte s.mem ((l1Base pa).toNat + k.val)) ∧
    (∀ n : Fin 8, 0 < n → (∀ w : Fin 8, (l1SetOf s pa)[w].valid = true ↔ n ≤ w) →
      ∀ w : Fin 8, ((l1SetOf t pa)[w].valid = true ↔ n.val - 1 ≤ w.val) ∧
        (w.val = n.val - 1 → (l1SetOf t pa)[w] = { valid := true, tag := l1Tag pa, line := block }) ∧
        (w.val ≠ n.val - 1 → (l1SetOf t pa)[w] = (l1SetOf s pa)[w])) ∧
    ((∀ w : Fin 8, (l1SetOf s pa)[w].valid = false) →
      ∀ w : Fin 8, ((l1SetOf t pa)[w].valid = true ↔ w = 7) ∧
        (w = 7 → (l1SetOf t pa)[w] = { valid := true, tag := l1Tag pa, line := block }) ∧
        (w ≠ 7 → (l1SetOf t pa)[w] = (l1SetOf s pa)[w])) ∧
    ((∀ w : Fin 8, (l1SetOf s pa)[w].valid = true) →
      ∀ w : Fin 8, (l1SetOf t pa)[w].valid = true ∧
        (w = 0 → (l1SetOf t pa)[w] = { valid := true, tag := l1Tag pa, line := block }) ∧
        (w ≠ 0 → (l1SetOf t pa)[w] = (l1SetOf s pa)[w]))

/-- R183 with R153, R155, R224: READ_PHYS, clause by clause. A hit answers with the byte of the line and changes nothing. A miss
below MEM_BYTES answers with the byte of memory and fills the victim way with the 64 bytes of its block. A miss at or above
MEM_BYTES halts the block and fills nothing. -/
def Obligations.ReadPhysFollowsItsRule : Prop :=
  ∀ (s : State) (pa : PhysAddr), s.halted = false →
    (∀ w, L1Hits s pa w →
      exec (.readPhys pa) s = .next { s with
        response := some ⟨.ok, ((l1SetOf s pa)[w].line[l1Byte pa]).setWidth 64⟩, events := [.l1Hit] }) ∧
    (L1Misses s pa → pa.toNat < s.memMB * 2 ^ 20 →
      ∃ block : Line, (∀ k : Fin 64, block[k] = readByte s.mem ((pa &&& ~~~63#64).toNat + k.val)) ∧
        exec (.readPhys pa) s = .next { s with
          l1 := s.l1.set (l1Set pa).val
            ((l1SetOf s pa).set (l1Victim (l1SetOf s pa)).val { valid := true, tag := l1Tag pa, line := block }
              (l1Victim (l1SetOf s pa)).isLt)
            (l1Set pa).isLt
          response := some ⟨.ok, (readByte s.mem pa.toNat).setWidth 64⟩
          events := [.l1Miss] }) ∧
    (L1Misses s pa → s.memMB * 2 ^ 20 ≤ pa.toNat →
      exec (.readPhys pa) s = .next { s with
        halted := true, response := some ⟨.fatal, 0#64⟩, events := [.l1Miss] })

/-- R153, R155: after a `read_phys` that answered, a second one in the same 64-byte block hits; of a block just filled it
answers with the byte memory holds. -/
def Obligations.SecondReadOfABlockHits : Prop :=
  ∀ (s t : State) (p q : PhysAddr) (d : Word), exec (.readPhys p) s = .next t → t.response = some ⟨.ok, d⟩ →
    l1Base q = l1Base p →
    ∃ u b, exec (.readPhys q) t = .next u ∧ u.response = some ⟨.ok, b⟩ ∧ u.events = [.l1Hit] ∧ u.l1 = t.l1 ∧
      (t.events = [.l1Miss] → b = (readByte s.mem q.toNat).setWidth 64)

/-- R182: READ is TRANSLATE and, if that answers OK, READ_PHYS of its result in the state it leaves; a failed translation is
passed on unchanged. -/
def Obligations.ReadIsTranslateThenReadPhys : Prop :=
  ∀ (s t : State) (va : VirtAddr), exec (.translate va) s = .next t →
    (∀ (pa : PhysAddr) (u : State), t.response = some ⟨.ok, pa⟩ → exec (.readPhys pa) t = .next u →
      exec (.read va) s = .next { u with events := t.events ++ u.events }) ∧
    ((∀ pa, t.response ≠ some ⟨.ok, pa⟩) → exec (.read va) s = .next t)

/-- R182: READ completes with the byte whenever the address translates and the byte reads; its state is `translate`'s TLB and
`read_phys`'s L1, and nothing else changes. -/
def Obligations.ReadAnswersTheByte : Prop :=
  ∀ (s : State) (va : VirtAddr) (pa : PhysAddr) (b : Byte), s.halted = false → Translates s va pa → ReadsByte s pa b →
    ∃ t u, exec (.translate va) s = .next t ∧ exec (.readPhys pa) s = .next u ∧
      exec (.read va) s = .next { s with
        tlb := t.tlb, l1 := u.l1, response := some ⟨.ok, b.setWidth 64⟩, events := t.events ++ u.events }

/-- R31: at construction and after every step, no two valid ways of an L1 set have the same tag (that a set has 8 ways is its
type). -/
def Obligations.L1TagsStayUnique : Prop :=
  (∀ p : Params, L1TagsUnique (State.ofParams p)) ∧
  ∀ s t : State, L1TagsUnique s → step s = .next t → L1TagsUnique t

/-! ## Page-table edits -/

/-- R184: MAP_PAGE. A misaligned table is refused; a table outside memory halts the block and writes nothing; otherwise the
8 bytes at `table_loc + 8*index` become `(target & ~0xFFF) | 1`, little-endian, and nothing else changes: not the TLB, not the
L1, no other byte of memory. -/
def Obligations.MapPageFollowsItsRule : Prop :=
  ∀ (s : State) (tableLoc : PhysAddr) (index : TableIndex) (target : PhysAddr), s.halted = false →
    (tableLoc.extractLsb' 0 12 ≠ 0#12 → exec (.mapPage tableLoc index target) s = .refused .misalignedTableLoc) ∧
    (tableLoc.extractLsb' 0 12 = 0#12 → s.memMB * 2 ^ 20 < tableLoc.toNat + 4096 →
      exec (.mapPage tableLoc index target) s = .next { s with
        halted := true, response := some ⟨.fatal, 0#64⟩, events := [] }) ∧
    (tableLoc.extractLsb' 0 12 = 0#12 → tableLoc.toNat + 4096 ≤ s.memMB * 2 ^ 20 → Memory.wf s.mem = true →
      ∃ m, exec (.mapPage tableLoc index target) s = .next { s with
          mem := m, response := some ⟨.ok, 0#64⟩, events := [] } ∧ Memory.wf m = true ∧
        (∀ k, k < 8 → readByte m (tableLoc.toNat + 8 * index.toNat + k) =
          ((target &&& ~~~0xFFF#64) ||| 1#64).extractLsb' (8 * k) 8) ∧
        (∀ a, (a < tableLoc.toNat + 8 * index.toNat ∨ tableLoc.toNat + 8 * index.toNat + 8 ≤ a) →
          readByte m a = readByte s.mem a))

/-- R185: UNMAP_PAGE. As R184, with the 8 bytes at `table_loc + 8*index` becoming 0. -/
def Obligations.UnmapPageFollowsItsRule : Prop :=
  ∀ (s : State) (tableLoc : PhysAddr) (index : TableIndex), s.halted = false →
    (tableLoc.extractLsb' 0 12 ≠ 0#12 → exec (.unmapPage tableLoc index) s = .refused .misalignedTableLoc) ∧
    (tableLoc.extractLsb' 0 12 = 0#12 → s.memMB * 2 ^ 20 < tableLoc.toNat + 4096 →
      exec (.unmapPage tableLoc index) s = .next { s with
        halted := true, response := some ⟨.fatal, 0#64⟩, events := [] }) ∧
    (tableLoc.extractLsb' 0 12 = 0#12 → tableLoc.toNat + 4096 ≤ s.memMB * 2 ^ 20 → Memory.wf s.mem = true →
      ∃ m, exec (.unmapPage tableLoc index) s = .next { s with
          mem := m, response := some ⟨.ok, 0#64⟩, events := [] } ∧ Memory.wf m = true ∧
        (∀ k, k < 8 → readByte m (tableLoc.toNat + 8 * index.toNat + k) = 0#8) ∧
        (∀ a, (a < tableLoc.toNat + 8 * index.toNat ∨ tableLoc.toNat + 8 * index.toNat + 8 ≤ a) →
          readByte m a = readByte s.mem a))

/-- R50, R247: the walk's table reads see an edit at once: the edited entry reads as written, every other entry of every
aligned table as before. -/
def Obligations.TableReadsSeeTheEdit : Prop :=
  ∀ (s t : State) (tableLoc : PhysAddr) (index : TableIndex), Memory.wf s.mem = true → t.halted = false →
    (∀ target : PhysAddr, exec (.mapPage tableLoc index target) s = .next t →
      tableRead t tableLoc index = .ok (newPresent target) ∧
      ∀ (u : PhysAddr) (j : TableIndex), frameAligned u = true → (u, j) ≠ (tableLoc, index) →
        tableRead t u j = tableRead s u j) ∧
    (exec (.unmapPage tableLoc index) s = .next t →
      tableRead t tableLoc index = .ok newUnmapped ∧
      ∀ (u : PhysAddr) (j : TableIndex), frameAligned u = true → (u, j) ≠ (tableLoc, index) →
        tableRead t u j = tableRead s u j)

/-- R47: `map_page` and `unmap_page` are idempotent: repeating one leaves the same state. -/
def Obligations.RepeatedEditChangesNothing : Prop :=
  ∀ (s t : State) (tableLoc : PhysAddr) (index : TableIndex), Memory.wf s.mem = true → t.halted = false →
    (∀ target : PhysAddr, exec (.mapPage tableLoc index target) s = .next t →
      exec (.mapPage tableLoc index target) t = .next t) ∧
    (exec (.unmapPage tableLoc index) s = .next t → exec (.unmapPage tableLoc index) t = .next t)

/-- R52, R245: a page-table edit does not touch the TLB: an address whose translation was cached before the edit still hits
after it and answers as before, at whatever level the edit was. -/
def Obligations.CachedTranslationOutlivesAnEdit : Prop :=
  ∀ (s t : State) (tableLoc : PhysAddr) (index : TableIndex) (target : PhysAddr) (va : VirtAddr) (w : Fin 4),
    (exec (.mapPage tableLoc index target) s = .next t ∨ exec (.unmapPage tableLoc index) s = .next t) →
    t.halted = false → TlbHits s va w →
    ∃ u, exec (.translate va) t = .next u ∧ u.events = [.tlbHit] ∧
      u.response = some ⟨.ok, withOffset (tlbSetOf s va)[w].pa va⟩

/-- R51, R246: a page-table edit does not touch the L1: a byte whose line was cached before the edit still hits after it and
reads as the line holds it. -/
def Obligations.CachedLineOutlivesAnEdit : Prop :=
  ∀ (s t : State) (tableLoc : PhysAddr) (index : TableIndex) (target : PhysAddr) (pa : PhysAddr) (w : Fin 8),
    (exec (.mapPage tableLoc index target) s = .next t ∨ exec (.unmapPage tableLoc index) s = .next t) →
    t.halted = false → L1Hits s pa w →
    ∃ u, exec (.readPhys pa) t = .next u ∧ u.events = [.l1Hit] ∧
      u.response = some ⟨.ok, ((l1SetOf s pa)[w].line[l1Byte pa]).setWidth 64⟩

/-- R243: four `map_page`, one for each level of the walk of `va`, in any order, make `va` translate: if the four slots are
different, none of the edits was Fatal and the TLB does not hold the address, the next TRANSLATE walks and answers with the frame
of `target` and the address's own offset. -/
def Obligations.FourEditsMakeAnAddressTranslate : Prop :=
  ∀ (s t : State) (va : VirtAddr) (t2 t3 t4 target : PhysAddr) (edits : List Instr), Memory.wf s.mem = true →
    edits.Perm [.mapPage s.cr3 (vpn1 va) t2, .mapPage t2 (vpn2 va) t3, .mapPage t3 (vpn3 va) t4,
      .mapPage t4 (vpn4 va) target] →
    [(s.cr3, vpn1 va), (t2, vpn2 va), (t3, vpn3 va), (t4, vpn4 va)].Nodup →
    execAll edits s = .next t → t.halted = false → TlbMisses s va →
    ∃ u, exec (.translate va) t = .next u ∧ u.response = some ⟨.ok, withOffset target va⟩ ∧ u.events = [.tlbMiss]

/-! ## Maintenance and the reserved op code -/

/-- R186, R126: INVALIDATE_TLB completes with every way of every set at its construction value and nothing else changed. -/
def Obligations.InvalidateTlbEmptiesTheTlb : Prop :=
  ∀ s : State, s.halted = false →
    ∃ tlb : Tlb, (∀ (i : Fin 128) (w : Fin 4), tlb[i][w] = { valid := false, tag := 0#64, ctr := 0, pa := 0#64 }) ∧
      exec .invalidateTlb s = .next { s with tlb := tlb, response := some ⟨.ok, 0#64⟩, events := [] }

/-- R187, R156: INVALIDATE_CACHE completes with every way of every set at its construction value and nothing else changed. -/
def Obligations.InvalidateCacheEmptiesTheL1 : Prop :=
  ∀ s : State, s.halted = false →
    ∃ l1 : L1, (∀ (i : Fin 64) (w : Fin 8), l1[i][w].valid = false ∧ l1[i][w].tag = 0#52 ∧
        ∀ k : Fin 64, l1[i][w].line[k] = 0#8) ∧
      exec .invalidateCache s = .next { s with l1 := l1, response := some ⟨.ok, 0#64⟩, events := [] }

/-- R56: after `invalidate_tlb` every translation misses, and answers from the page tables as memory holds them; after
`invalidate_cache` every `read_phys` misses and answers with the byte of memory, or FATAL outside memory. Neither changes
memory or the other structure. -/
def Obligations.InvalidationsMakeTheNextAccessMiss : Prop :=
  (∀ (s t : State), exec .invalidateTlb s = .next t → t.mem = s.mem ∧ t.l1 = s.l1 ∧
    ∀ va, Mapped s va → ∃ u, exec (.translate va) t = .next u ∧ u.events = [.tlbMiss] ∧
      u.response = some ⟨.ok, withOffset (physAddr (entry4 s va)) va⟩) ∧
  (∀ (s t : State), exec .invalidateTlb s = .next t →
    ∀ va, ¬Mapped s va → ∃ u e, exec (.translate va) t = .next u ∧ u.events = [.tlbMiss] ∧ pageWalk s va = .error e ∧
      u.response = some ⟨exceptionStatus e, 0#64⟩) ∧
  (∀ (s t : State), exec .invalidateCache s = .next t → t.mem = s.mem ∧ t.tlb = s.tlb ∧
    ∀ pa : PhysAddr, ∃ u, exec (.readPhys pa) t = .next u ∧ u.events = [.l1Miss] ∧
      (pa.toNat < memBytes s → u.response = some ⟨.ok, (readByte s.mem pa.toNat).setWidth 64⟩) ∧
      (memBytes s ≤ pa.toNat → u.response = some ⟨.fatal, 0#64⟩))

/-- R67: the reserved op code is refused, whatever the other bits of its request; this instruction has no other outcome. -/
def Obligations.ReservedOpIsRefused : Prop :=
  ∀ (s : State) (upper : BitVec 13) (a b : Word), s.halted = false →
    exec (.reserved upper a b) s = .refused .reservedOp

/-! ## Exceptions, responses and events -/

/-- R222: whatever the operation, an answer PAGE_FAULT has DATA 0 and changes no state: beside the response, the only trace is
the TLB_MISS pulse. -/
def Obligations.PageFaultAnswerChangesNoState : Prop :=
  ∀ (i : Instr) (s t : State) (d : Word), exec i s = .next t → t.response = some ⟨.pageFault, d⟩ →
    t = { s with response := some ⟨.pageFault, 0#64⟩, events := [.tlbMiss] }

/-- R224: whatever the operation, an answer FATAL leaves memory and the L1 as they were and halts the block. The TLB is as before,
but in a READ, where the insert or the counter of its translation stays, and the pulses are the translation's, with at most L1_MISS
added (which pulses each answer makes is stated clause by clause elsewhere). Every operation is then refused (R28). The model's
choice: that the refusal is named `halted`, for the reserved op code too (log entry 6), and, read from R224 by inference, that no
step gives a next state, also with no request waiting (log entry 5). -/
def Obligations.FatalAnswerHaltsForGood : Prop :=
  ∀ (i : Instr) (s t : State) (d : Word), exec i s = .next t → t.response = some ⟨.fatal, d⟩ →
    d = 0#64 ∧ t.halted = true ∧ t.mem = s.mem ∧ t.l1 = s.l1 ∧ t.cr3 = s.cr3 ∧
    ((∀ va, i ≠ .read va) → t.tlb = s.tlb) ∧
    (∀ va, i = .read va → ∃ u, exec (.translate va) s = .next u ∧ t.tlb = u.tlb ∧
      (t.events = u.events ∨ t.events = u.events ++ [.l1Miss])) ∧
    (∀ j, exec j t = .refused .halted) ∧ ∀ u, step t ≠ .next u

/-- R28, R67, R224: `halted` is 0 at construction, becomes 1 exactly on an answer FATAL, and while it is 1 every request is refused,
so no operation clears it. The model's choice: that an operation's refusal is named `halted`, for the reserved op code and a
misaligned table too (log entry 6), and, read from R224 by inference, that a halted block with no request waiting has no next state
either (log entry 5, in the last clause). -/
def Obligations.HaltedIsSetByFatalOnly : Prop :=
  (∀ p : Params, (State.ofParams p).halted = false) ∧
  (∀ (i : Instr) (s t : State), exec i s = .next t → (t.halted = true ↔ ∃ d, t.response = some ⟨.fatal, d⟩)) ∧
  (∀ (i : Instr) (s : State), s.halted = true → exec i s = .refused .halted) ∧
  (∀ (s : State) (r : Request) (rest : List Request), s.halted = true → s.requests = r :: rest →
    ∃ why, step s = .refused why) ∧
  (∀ s t : State, s.halted = true → step s ≠ .next t)

/-- R65: every operation that is not refused answers once, with a STATUS other than 3. DATA is 0 unless the status is OK; only
TRANSLATE and READ answer PAGE_FAULT; FATAL leaves the block halted; DATA of a read is a zero-extended byte and of an edit or
an invalidation 0 (R64). -/
def Obligations.ResponsesFollowTheTable : Prop :=
  ∀ (i : Instr) (s t : State), exec i s = .next t →
    ∃ r, t.response = some r ∧ statusCode r.status ≠ 3#2 ∧
      (statusCode r.status ≠ 0#2 → r.data = 0#64) ∧
      (statusCode r.status = 1#2 → ∃ va, i = .translate va ∨ i = .read va) ∧
      (statusCode r.status = 2#2 → t.halted = true) ∧
      ((∃ x, i = .read x ∨ i = .readPhys x) → r.data.toNat < 256) ∧
      ((∃ l k x, i = .mapPage l k x) ∨ (∃ l k, i = .unmapPage l k) ∨ i = .invalidateTlb ∨ i = .invalidateCache →
        r.data = 0#64)

/-- R66: what each operation pulses. `translate` exactly one of TLB_HIT and TLB_MISS; `read` one of those and then, unless the
translation failed, exactly one of L1_HIT and L1_MISS; `read_phys` exactly one of L1_HIT and L1_MISS; the others nothing. -/
def Obligations.EventsFollowTheRule : Prop :=
  ∀ (s t : State),
    (∀ va, exec (.translate va) s = .next t → t.events = [.tlbHit] ∨ t.events = [.tlbMiss]) ∧
    (∀ pa, exec (.readPhys pa) s = .next t → t.events = [.l1Hit] ∨ t.events = [.l1Miss]) ∧
    (∀ va, exec (.read va) s = .next t → ∃ u, exec (.translate va) s = .next u ∧
      ((∃ pa, u.response = some ⟨.ok, pa⟩) → t.events = u.events ++ [.l1Hit] ∨ t.events = u.events ++ [.l1Miss]) ∧
      ((∀ pa, u.response ≠ some ⟨.ok, pa⟩) → t.events = u.events)) ∧
    (∀ l k x, exec (.mapPage l k x) s = .next t → t.events = []) ∧
    (∀ l k, exec (.unmapPage l k) s = .next t → t.events = []) ∧
    (exec .invalidateTlb s = .next t → t.events = []) ∧
    (exec .invalidateCache s = .next t → t.events = [])

/-! ## The whole machine -/

/-- R240, R241: construction is refused for an illegal parameter; otherwise every byte of memory is 0, `cr3` is CR3_INIT, every
TLB and L1 way is invalid with its fields 0, and the block is not halted. -/
def Obligations.ConstructionGivesTheListedState : Prop :=
  (∀ p : Params, (p.memMB < 1 ∨ p.cr3Init.extractLsb' 0 12 ≠ 0#12 ∨ p.tlbCtrMax < 1) ↔ ∃ why, construct p = .refused why) ∧
  (∀ (p : Params) (s : State), construct p = .next s →
    s.memMB = p.memMB ∧ s.tlbCtrMax = p.tlbCtrMax ∧ s.cr3 = p.cr3Init ∧ s.halted = false ∧
    (∀ a, readByte s.mem a = 0#8) ∧
    (∀ (i : Fin 128) (w : Fin 4), s.tlb[i][w] = { valid := false, tag := 0#64, ctr := 0, pa := 0#64 }) ∧
    (∀ (i : Fin 64) (w : Fin 8), s.l1[i][w].valid = false ∧ s.l1[i][w].tag = 0#52 ∧
      ∀ k : Fin 64, s.l1[i][w].line[k] = 0#8)) ∧
  (∀ (p : Params) (f : Fault), construct p ≠ .fault f)

/-- R243: after construction, with the root table inside memory, every TRANSLATE and every READ page-faults. -/
def Obligations.FreshBlockPageFaults : Prop :=
  ∀ (p : Params) (s : State) (va : VirtAddr), construct p = .next s → p.cr3Init.toNat + 4096 ≤ p.memMB * 2 ^ 20 →
    exec (.translate va) s = .next { s with response := some ⟨.pageFault, 0#64⟩, events := [.tlbMiss] } ∧
    exec (.read va) s = .next { s with response := some ⟨.pageFault, 0#64⟩, events := [.tlbMiss] }

/-- R22, R47, R51, R52, R158, R181 to R187: no operation writes `cr3` or a parameter, only MAP_PAGE and UNMAP_PAGE write memory,
only TRANSLATE, READ and INVALIDATE_TLB the TLB, only READ, READ_PHYS and INVALIDATE_CACHE the L1; and no operation issues a
request. -/
def Obligations.OperationsWriteOnlyTheirOwnState : Prop :=
  ∀ (i : Instr) (s t : State), exec i s = .next t →
    t.cr3 = s.cr3 ∧ t.memMB = s.memMB ∧ t.tlbCtrMax = s.tlbCtrMax ∧ t.requests = s.requests ∧
    (t.mem ≠ s.mem → (∃ l k x, i = .mapPage l k x) ∨ ∃ l k, i = .unmapPage l k) ∧
    (t.tlb ≠ s.tlb → (∃ va, i = .translate va ∨ i = .read va) ∨ i = .invalidateTlb) ∧
    (t.l1 ≠ s.l1 → (∃ x, i = .read x ∨ i = .readPhys x) ∨ i = .invalidateCache)

/-- R189, R20: an operation is a function of the block's state and the request alone: what is waiting in the request channel
and what the last request left in the response channel and the event outputs change neither its outcome nor the state it
leaves. -/
def Obligations.OperationsIgnoreTheChannels : Prop :=
  ∀ (i : Instr) (s : State) (q : List Request) (r : Option Response) (e : List Event),
    (∀ t, exec i s = .next t →
      exec i { s with requests := q, response := r, events := e } = .next { t with requests := q }) ∧
    (∀ why, exec i s = .refused why → exec i { s with requests := q, response := r, events := e } = .refused why) ∧
    (∀ f, exec i s ≠ .fault f)

/-- R32, R23: at construction and after every step, every aligned 8-byte word of memory is 0 or a present entry, and every byte
outside memory is 0. -/
def Obligations.MemoryHoldsOnlyPtes : Prop :=
  (∀ p : Params, MemoryHoldsPtes (State.ofParams p)) ∧
  ∀ s t : State, MemoryInv s → MemoryHoldsPtes s → step s = .next t → MemoryHoldsPtes t

/-- R7, R22, R23, R24, R153: the invariant of the block is kept by every step: memory canonical and inside its bounds, legal
parameters and an aligned `cr3`, every TLB tag and counter in range, every valid L1 line inside memory. -/
def Obligations.StepKeepsTheBlockInvariant : Prop :=
  ∀ s t : State, Inv s → step s = .next t → Inv t

/-- R240, R241: every legal construction meets the invariant, and so does the model's `State.reset` (whose parameters are the
model's choice, log entry 1). -/
def Obligations.ConstructionMeetsTheBlockInvariant : Prop :=
  (∀ (p : Params) (s : State), construct p = .next s → Inv s) ∧ Inv State.reset ∧ construct Params.standard = .next State.reset

/-- R5, R11, R60: a step from a state that is not halted, whose request decodes to an operation other than the reserved one, always
gives a next state, with that request taken. The first clause, that a step faults exactly when the block is halted and no request
waits, is the model's inference from R224, "A model treats a halted state as a fault state" (log entry 5). That it does not fault
while a block that is not halted waits is log entry 3, and that a refused request is no fault is log entry 6. -/
def Obligations.WellFormedRequestsAlwaysComplete : Prop :=
  (∀ (s : State) (f : Fault), step s = .fault f ↔ s.requests = [] ∧ s.halted = true) ∧
  ∀ (s : State) (r : Request) (rest : List Request) (i : Instr), s.requests = r :: rest → s.halted = false →
    decode r = .ok i → (∀ u a b, i ≠ .reserved u a b) → ∃ t, step s = .next t ∧ t.requests = rest

/-- R70: the assembler gives the request of an operation for the line that names it (here, the one line of each operation that
95_test_vectors §0 and §2.5 write out). -/
def Obligations.AssemblerGivesTheSpecRequests : Prop :=
  assembleLine "map_page 0xF000, 10, 0x11000".toList = .ok (some ⟨0x0503#16, 0xF000#64, 0x11000#64⟩) ∧
  assembleLine "unmap_page 0x13000, 0       ; 3  CMD 0x0004  A 0x13000".toList = .ok (some ⟨0x0004#16, 0x13000#64, 0#64⟩) ∧
  assembleLine "translate 0x50000000123".toList = .ok (some ⟨0x0000#16, 0x50000000123#64, 0#64⟩) ∧
  assembleLine "read      0x50000003002".toList = .ok (some ⟨0x0001#16, 0x50000003002#64, 0#64⟩) ∧
  assembleLine "read_phys 0xF051".toList = .ok (some ⟨0x0002#16, 0xF051#64, 0#64⟩) ∧
  assembleLine "invalidate_tlb".toList = .ok (some ⟨0x0005#16, 0#64, 0#64⟩) ∧
  assembleLine "invalidate_cache".toList = .ok (some ⟨0x0006#16, 0#64, 0#64⟩)
end

