-- ==== Sys2Proof/Laws/Operands.lean ====
section
/-! SUPPORT. The selects of an address as numbers, and the bits the masks keep. -/

namespace Sys2Proof.Machine

/-! ## Selects as numbers -/

theorem offset_toNat (a : Word) : (offset a).toNat = a.toNat % 4096 := by
  simp [offset]

theorem frame_toNat (pa : PhysAddr) : (frame pa).toNat = pa.toNat / 4096 := by
  have := pa.isLt
  simp only [frame, BitVec.extractLsb'_toNat, Nat.shiftRight_eq_div_pow]
  omega

theorem vpn_toNat (va : VirtAddr) : (vpn va).toNat = va.toNat / 4096 := frame_toNat va

theorem tlbSet_val (v : Vpn) : (tlbSet v).val = v.toNat % 128 := by
  simp [tlbSet]

theorem l1Set_val (pa : PhysAddr) : (l1Set pa).val = pa.toNat / 64 % 64 := by
  simp only [l1Set, offset, BitVec.val_toFin, BitVec.extractLsb'_toNat, Nat.shiftRight_eq_div_pow]
  omega

theorem l1Byte_val (pa : PhysAddr) : (l1Byte pa).val = pa.toNat % 64 := by
  simp [l1Byte]

theorem l1Tag_toNat (pa : PhysAddr) : (l1Tag pa).toNat = pa.toNat / 4096 := frame_toNat pa

/-! ## Masks -/

/-- Bit `i` of the mask of the low `k` bits. -/
theorem lowMask_getElem {n : Nat} (k i : Nat) (hi : i < n) : (BitVec.ofNat n (2 ^ k - 1))[i] = decide (i < k) := by
  rw [← BitVec.getLsbD_eq_getElem]
  rw [BitVec.getLsbD_ofNat, Nat.testBit_two_pow_sub_one]
  simp [hi]

/-- Clearing the low `k` bits rounds down to a multiple of `2^k`. -/
theorem and_not_mask_eq {n : Nat} (x : BitVec n) (k : Nat) :
    x &&& ~~~(BitVec.ofNat n (2 ^ k - 1)) = (x >>> k) <<< k := by
  ext i hi
  rw [BitVec.getElem_and, BitVec.getElem_not, lowMask_getElem]
  by_cases hik : i < k
  · simp [hik]
  · simp [hik, Nat.add_sub_cancel' (not_lt.mp hik), BitVec.getLsbD_eq_getElem hi]

theorem and_not_mask_toNat {n : Nat} (x : BitVec n) (k : Nat) :
    (x &&& ~~~(BitVec.ofNat n (2 ^ k - 1))).toNat = x.toNat / 2 ^ k * 2 ^ k := by
  have hx := x.isLt
  have hle : x.toNat / 2 ^ k * 2 ^ k ≤ x.toNat := Nat.div_mul_le_self _ _
  rw [and_not_mask_eq, BitVec.toNat_shiftLeft, BitVec.toNat_ushiftRight, Nat.shiftRight_eq_div_pow, Nat.shiftLeft_eq,
    Nat.mod_eq_of_lt (by omega)]

theorem l1Base_toNat (pa : PhysAddr) : (l1Base pa).toNat = pa.toNat / 64 * 64 :=
  and_not_mask_toNat pa 6

theorem physAddr_toNat (e : Word) : (physAddr e).toNat = e.toNat / 4096 * 4096 :=
  and_not_mask_toNat e 12

theorem frameAligned_iff (a : PhysAddr) : frameAligned a = true ↔ a.toNat % 4096 = 0 := by
  rw [frameAligned, beq_iff_eq, ← BitVec.toNat_inj, offset_toNat]
  rfl

@[simp] theorem frameAligned_physAddr (e : Word) : frameAligned (physAddr e) = true := by
  rw [frameAligned_iff, physAddr_toNat]
  omega

theorem frameAligned_iff_extract (a : PhysAddr) : frameAligned a = true ↔ a.extractLsb' 0 12 = 0#12 := by
  rw [frameAligned, beq_iff_eq, offset]

/-- Bit `i` of a recombined address. -/
theorem withOffset_getElem (pa off : Word) (i : Nat) (hi : i < 64) :
    (withOffset pa off)[i] = if i < 12 then off[i] else pa[i] := by
  have h : offsetMask[i] = decide (i < 12) := lowMask_getElem 12 i hi
  by_cases h12 : i < 12 <;> simp [withOffset, h, h12]

/-- Only the last offset counts. -/
@[simp] theorem withOffset_withOffset (pa off off' : Word) : withOffset (withOffset pa off) off' = withOffset pa off' := by
  ext i hi
  simp only [withOffset_getElem]
  split <;> simp_all

/-! ## The set and the tag of a VPN -/

theorem tlbTag_toNat (v : Vpn) : (tlbTag v).toNat = v.toNat / 128 * 128 := by
  have h := and_not_mask_toNat v 7
  have hv := v.isLt
  rw [tlbTag, BitVec.toNat_setWidth, show (127#52) = BitVec.ofNat 52 (2 ^ 7 - 1) from rfl, h]
  omega

/-- R121: the set and the tag determine the VPN. -/
theorem vpn_of_set_tag {u v : Vpn} (hs : tlbSet u = tlbSet v) (ht : tlbTag u = tlbTag v) : u = v := by
  have h1 := congrArg Fin.val hs
  have h2 := congrArg BitVec.toNat ht
  rw [tlbSet_val, tlbSet_val] at h1
  rw [tlbTag_toNat, tlbTag_toNat] at h2
  exact BitVec.eq_of_toNat_eq (by omega)

theorem tlbTag_lt (v : Vpn) : (tlbTag v).toNat < 2 ^ 52 := by
  have := v.isLt
  rw [tlbTag_toNat]
  omega

theorem tlbTag_and_127 (v : Vpn) : tlbTag v &&& 127#64 = 0#64 := by
  have h : (127 : Nat) = 2 ^ 7 - 1 := rfl
  rw [← BitVec.toNat_inj, BitVec.toNat_and, tlbTag_toNat]
  simp only [BitVec.toNat_ofNat]
  rw [show (127 : Nat) % 2 ^ 64 = 2 ^ 7 - 1 from rfl, Nat.and_two_pow_sub_one_eq_mod]
  omega

/-- R151: the set, the tag and the byte select of a physical address put together are the address. -/
theorem l1Base_eq (pa : PhysAddr) : (l1Base pa).toNat = (l1Tag pa).toNat * 4096 + (l1Set pa).val * 64 := by
  rw [l1Base_toNat, l1Tag_toNat, l1Set_val]
  omega

theorem toNat_eq_l1Base_add (pa : PhysAddr) : pa.toNat = (l1Base pa).toNat + (l1Byte pa).val := by
  rw [l1Base_toNat, l1Byte_val]
  omega

/-- Two addresses of one block share its set and its tag. -/
theorem l1Set_eq_of_base {p q : PhysAddr} (h : l1Base q = l1Base p) : l1Set q = l1Set p := by
  have h1 := congrArg BitVec.toNat h
  rw [l1Base_toNat, l1Base_toNat] at h1
  exact Fin.ext (by rw [l1Set_val, l1Set_val]; omega)

theorem l1Tag_eq_of_base {p q : PhysAddr} (h : l1Base q = l1Base p) : l1Tag q = l1Tag p := by
  have h1 := congrArg BitVec.toNat h
  rw [l1Base_toNat, l1Base_toNat] at h1
  exact BitVec.eq_of_toNat_eq (by rw [l1Tag_toNat, l1Tag_toNat]; omega)

/-! ## Slots of tables -/

theorem slotAddr_inside (t : PhysAddr) (i : TableIndex) : t.toNat ≤ slotAddr t i ∧ slotAddr t i + 8 ≤ t.toNat + 4096 := by
  have := i.isLt
  simp only [slotAddr]
  omega

/-- Two slots of aligned tables are the same slot or do not overlap. -/
theorem slotAddr_apart {t u : PhysAddr} {i j : TableIndex} (ht : frameAligned t = true) (hu : frameAligned u = true)
    (h : (u, j) ≠ (t, i)) : slotAddr u j + 8 ≤ slotAddr t i ∨ slotAddr t i + 8 ≤ slotAddr u j := by
  rw [frameAligned_iff] at ht hu
  have hi := i.isLt
  have hj := j.isLt
  simp only [slotAddr]
  by_contra hc
  refine h (Prod.ext (BitVec.eq_of_toNat_eq ?_) (BitVec.eq_of_toNat_eq ?_)) <;> simp only <;> omega

end Sys2Proof.Machine
end

