-- ==== Sys2Proof/Laws/Encoding.lean ====
section
/-! SUPPORT. The fields of a command word and the words they make: what the decoder's and the encoder's parts say about each
other. -/

namespace Sys2Proof

/-! ## The fields of a word that is put together -/

@[simp] theorem opField_commandWord (i : TableIndex) (op : BitVec 3) : opField (commandWord i op) = op := by
  ext k hk
  simp [opField, commandWord, show k < 7 by omega, show k < 16 by omega, BitVec.getLsbD_eq_getElem hk]

@[simp] theorem rsvField_commandWord (i : TableIndex) (op : BitVec 3) : rsvField (commandWord i op) = 0#4 := by
  ext k hk
  simp [rsvField, commandWord, show 3 + k < 7 by omega, show 3 + k < 16 by omega]

@[simp] theorem idxField_commandWord (i : TableIndex) (op : BitVec 3) : idxField (commandWord i op) = i := by
  ext k hk
  simp [idxField, commandWord, show 7 + k < 16 by omega, BitVec.getLsbD_eq_getElem hk,
    BitVec.getLsbD_of_ge op (7 + k) (by omega)]

@[simp] theorem opField_reservedWord (u : BitVec 13) : opField (reservedWord u) = 7#3 := by
  ext k hk
  have h : k = 0 ∨ k = 1 ∨ k = 2 := by omega
  rcases h with rfl | rfl | rfl <;> simp [opField, reservedWord]

@[simp] theorem upperField_reservedWord (u : BitVec 13) : upperField (reservedWord u) = u := by
  ext k hk
  have h7 : (7#16)[3 + k]'(by omega) = false := (Machine.lowMask_getElem 3 (3 + k) (by omega)).trans (by simp)
  simp [upperField, reservedWord, h7, show 3 + k < 16 by omega, BitVec.getLsbD_eq_getElem hk]

/-! ## A word is made of its fields -/

/-- Bit `k` of a command word of which the reserved field is 0. -/
theorem commandWord_fields {cmd : BitVec 16} (h : rsvField cmd = 0#4) : commandWord (idxField cmd) (opField cmd) = cmd := by
  ext k hk
  have hr : ∀ j, j < 4 → cmd.getLsbD (3 + j) = false := fun j hj => by
    have := congrArg (fun x : BitVec 4 => x.getLsbD j) h
    simpa [rsvField, hj] using this
  have hc : cmd[k] = cmd.getLsbD k := (BitVec.getLsbD_eq_getElem hk).symm
  rw [hc]
  by_cases h3 : k < 3
  · simp [commandWord, opField, idxField, h3, show k < 7 by omega]
  · by_cases h7 : k < 7
    · have := hr (k - 3) (by omega)
      rw [show 3 + (k - 3) = k by omega] at this
      simp [commandWord, opField, idxField, h3, h7, this]
    · simp [commandWord, opField, idxField, h3, h7, show k - 7 < 9 by omega,
        show 7 + (k - 7) = k by omega]

theorem reservedWord_fields {cmd : BitVec 16} (h : opField cmd = 7#3) : reservedWord (upperField cmd) = cmd := by
  ext k hk
  have ho : ∀ j, j < 3 → cmd.getLsbD j = true := fun j hj => by
    have := congrArg (fun x : BitVec 3 => x.getLsbD j) h
    have h7 : (7#3)[j] = true := (Machine.lowMask_getElem 3 j hj).trans (by simp [hj])
    simpa [opField, hj, h7] using this
  have hc : cmd[k] = cmd.getLsbD k := (BitVec.getLsbD_eq_getElem hk).symm
  have h7 : (7#16)[k] = decide (k < 3) := Machine.lowMask_getElem 3 k hk
  rw [hc]
  by_cases h3 : k < 3
  · simp [reservedWord, h7, h3, ho k h3]
  · simp [reservedWord, upperField, h7, h3, show k - 3 < 13 by omega,
      show 3 + (k - 3) = k by omega]

/-! ## The check of a request -/

/-- A request decodes by a row of R64 when it is well-formed for it. -/
theorem ifWellFormed_ok {u : OperandUse} {r : Request} {i j : Instr} (h : ifWellFormed u r j = .ok i) :
    malformed u r = none ∧ j = i := by
  unfold ifWellFormed at h
  split at h
  · exact nomatch h
  · next hm => exact ⟨hm, by injection h⟩

/-- R67, the conditions on a request whose operation has this use of its operands. -/
theorem malformed_none_iff (u : OperandUse) (r : Request) :
    malformed u r = none ↔
      rsvField r.cmd = 0#4 ∧ (u.idx = .mustBeZero → idxField r.cmd = 0#9) ∧ (u.a = .mustBeZero → r.a = 0#64) ∧
        (u.a = .frameAligned → Machine.frameAligned r.a = true) ∧ (u.b = .mustBeZero → r.b = 0#64) := by
  unfold malformed
  split_ifs with h1 h2 h3 h4 h5 <;> simp_all

end Sys2Proof
end

