-- ==== Sys2Proof/Laws/Memory.lean ====
section
/-! SUPPORT. The laws of memory: canonical form, read after write, little-endian values, and that canonical memories are equal
data. -/

namespace Sys2Proof.Machine

/-! ## The canonical form -/

theorem wf_cons (a : Nat) (b : Byte) (m : Memory) :
    Memory.wf ((a, b) :: m) = true ↔ b ≠ 0#8 ∧ (∀ c ∈ m, a < c.1) ∧ Memory.wf m = true := by
  induction m generalizing a b with
  | nil => simp [Memory.wf]
  | cons c rest ih =>
    obtain ⟨k, d⟩ := c
    simp only [Memory.wf, Bool.and_eq_true, bne_iff_ne, decide_eq_true_eq, List.forall_mem_cons]
    constructor
    · rintro ⟨⟨hb, hak⟩, h⟩
      exact ⟨hb, ⟨hak, fun c hc => lt_trans hak (((ih k d).mp h).2.1 c hc)⟩, h⟩
    · rintro ⟨hb, ⟨hak, -⟩, h⟩
      exact ⟨⟨hb, hak⟩, h⟩

theorem readByte_absent {m : Memory} {a : Nat} (h : ∀ c ∈ m, c.1 ≠ a) : readByte m a = 0#8 := by
  induction m with
  | nil => rfl
  | cons c rest ih =>
    obtain ⟨k, d⟩ := c
    have hk : a ≠ k := fun e => h (k, d) (by simp) e.symm
    simp only [readByte, if_neg hk]
    exact ih fun c hc => h c (by simp [hc])

theorem readByte_below {m : Memory} {a : Nat} (h : ∀ c ∈ m, a < c.1) : readByte m a = 0#8 :=
  readByte_absent fun c hc => (h c hc).ne'

theorem mem_consByte {a : Nat} {b : Byte} {m : Memory} {c : Host.Cell} (h : c ∈ consByte a b m) : c = (a, b) ∨ c ∈ m := by
  unfold consByte at h
  split at h
  · exact .inr h
  · simpa using h

theorem mem_writeByte {m : Memory} {a : Nat} {b : Byte} {c : Host.Cell} (h : c ∈ writeByte m a b) : c = (a, b) ∨ c ∈ m := by
  induction m with
  | nil => exact mem_consByte h
  | cons d rest ih =>
    obtain ⟨k, e⟩ := d
    simp only [writeByte] at h
    split_ifs at h with h1 h2
    · exact mem_consByte h
    · exact (mem_consByte h).imp id fun h => by simp [h]
    · rcases List.mem_cons.mp h with h | h
      · exact .inr (by simp [h])
      · exact (ih h).imp id fun h => by simp [h]

theorem consByte_wf {a : Nat} {b : Byte} {m : Memory} (ha : ∀ c ∈ m, a < c.1) (hm : Memory.wf m = true) :
    Memory.wf (consByte a b m) = true := by
  unfold consByte
  split
  · exact hm
  · exact (wf_cons a b m).mpr ⟨‹_›, ha, hm⟩

/-- A write keeps the canonical form. -/
theorem writeByte_wf {m : Memory} (hm : Memory.wf m = true) (a : Nat) (b : Byte) : Memory.wf (writeByte m a b) = true := by
  induction m with
  | nil => exact consByte_wf (by simp) rfl
  | cons d rest ih =>
    obtain ⟨k, e⟩ := d
    obtain ⟨he, hlt, hrest⟩ := (wf_cons k e rest).mp hm
    simp only [writeByte]
    split_ifs with h1 h2
    · refine consByte_wf ?_ hm
      rintro c (_ | ⟨_, hc⟩)
      · exact h1
      · exact lt_trans h1 (hlt c hc)
    · exact consByte_wf (h2 ▸ hlt) hrest
    · refine (wf_cons k e _).mpr ⟨he, fun c hc => ?_, ih hrest⟩
      rcases mem_writeByte hc with rfl | hc
      · exact lt_of_le_of_ne (not_lt.mp h1) (Ne.symm h2)
      · exact hlt c hc

theorem storeBytes_wf {m : Memory} (hm : Memory.wf m = true) (a v n : Nat) : Memory.wf (storeBytes m a v n) = true := by
  induction n generalizing m a v with
  | zero => exact hm
  | succ n ih => exact ih (writeByte_wf hm _ _) _ _

theorem mem_storeBytes {m : Memory} {a v n : Nat} {c : Host.Cell} (h : c ∈ storeBytes m a v n) :
    (a ≤ c.1 ∧ c.1 < a + n) ∨ c ∈ m := by
  induction n generalizing m a v with
  | zero => exact .inr h
  | succ n ih =>
    rcases ih h with h | h
    · exact .inl (by omega)
    · rcases mem_writeByte h with rfl | h
      · exact .inl ⟨le_refl _, by simp⟩
      · exact .inr h

/-! ## Read after write -/

theorem readByte_consByte_same {a : Nat} {b : Byte} {m : Memory} (ha : ∀ c ∈ m, a < c.1) :
    readByte (consByte a b m) a = b := by
  unfold consByte
  split
  · next h => rw [readByte_below ha, h]
  · simp [readByte]

theorem readByte_consByte_other {a x : Nat} {b : Byte} {m : Memory} (hx : x ≠ a) :
    readByte (consByte a b m) x = readByte m x := by
  unfold consByte
  split
  · rfl
  · simp [readByte, hx]

/-- A read after a write to the same address gives the byte written. -/
theorem readByte_writeByte_same {m : Memory} (hm : Memory.wf m = true) (a : Nat) (b : Byte) :
    readByte (writeByte m a b) a = b := by
  induction m with
  | nil => exact readByte_consByte_same (by simp)
  | cons d rest ih =>
    obtain ⟨k, e⟩ := d
    obtain ⟨-, hlt, hrest⟩ := (wf_cons k e rest).mp hm
    simp only [writeByte]
    split_ifs with h1 h2
    · refine readByte_consByte_same ?_
      rintro c (_ | ⟨_, hc⟩)
      · exact h1
      · exact lt_trans h1 (hlt c hc)
    · exact readByte_consByte_same (h2 ▸ hlt)
    · simp [readByte, h2, ih hrest]

/-- A write leaves every other address alone, whatever the memory's form. -/
theorem readByte_writeByte_other (m : Memory) {a x : Nat} (b : Byte) (hx : x ≠ a) :
    readByte (writeByte m a b) x = readByte m x := by
  induction m with
  | nil => exact readByte_consByte_other hx
  | cons d rest ih =>
    obtain ⟨k, e⟩ := d
    simp only [writeByte]
    split_ifs with h1 h2
    · exact readByte_consByte_other hx
    · rw [readByte_consByte_other hx]
      simp [readByte, ← h2, hx]
    · simp [readByte, ih]

/-! ## Little-endian values -/

/-- A store leaves every byte outside it alone. -/
theorem readByte_storeBytes_outside (m : Memory) {a n x : Nat} (v : Nat) (hx : x < a ∨ a + n ≤ x) :
    readByte (storeBytes m a v n) x = readByte m x := by
  induction n generalizing m a v with
  | zero => rfl
  | succ n ih =>
    rw [storeBytes, ih _ _ (by omega), readByte_writeByte_other _ _ (by omega)]

/-- Byte `k` of a store is bits `8k+7:8k` of its value. -/
theorem readByte_storeBytes_inside {m : Memory} (hm : Memory.wf m = true) {a n k : Nat} (v : Nat) (hk : k < n) :
    readByte (storeBytes m a v n) (a + k) = BitVec.ofNat 8 (v / 2 ^ (8 * k)) := by
  induction n generalizing m a v k with
  | zero => omega
  | succ n ih =>
    rw [storeBytes]
    cases k with
    | zero =>
      rw [readByte_storeBytes_outside _ _ (by omega)]
      simpa using readByte_writeByte_same hm a _
    | succ k =>
      have h := ih (writeByte_wf hm a (BitVec.ofNat 8 v)) (a := a + 1) (v / 256) (by omega : k < n)
      rw [show a + (k + 1) = a + 1 + k by omega, h, Nat.div_div_eq_div_mul,
        show 8 * (k + 1) = 8 * k + 8 by ring, pow_add, Nat.mul_comm,
        show (2 : Nat) ^ 8 = 256 from rfl]

theorem loadBytes_congr {m m' : Memory} {a n : Nat} (h : ∀ k, k < n → readByte m (a + k) = readByte m' (a + k)) :
    loadBytes m a n = loadBytes m' a n := by
  induction n generalizing a with
  | zero => rfl
  | succ n ih =>
    have h0 := h 0 (by omega)
    rw [loadBytes, loadBytes, ih fun k hk => ?_]
    · rw [← Nat.add_zero a, h0]
    · have := h (k + 1) (by omega)
      rwa [show a + (k + 1) = a + 1 + k by omega] at this

theorem loadBytes_of_bytes {m : Memory} {a n v : Nat} (h : ∀ k, k < n → readByte m (a + k) = BitVec.ofNat 8 (v / 2 ^ (8 * k))) :
    loadBytes m a n = v % 2 ^ (8 * n) := by
  induction n generalizing a v with
  | zero => simp [loadBytes, Nat.mod_one]
  | succ n ih =>
    have h0 : readByte m a = BitVec.ofNat 8 v := by simpa using h 0 (by omega)
    have hr : loadBytes m (a + 1) n = v / 256 % 2 ^ (8 * n) := ih fun k hk => by
      have := h (k + 1) (by omega)
      rwa [show a + (k + 1) = a + 1 + k by omega, show 8 * (k + 1) = 8 + 8 * k by ring, pow_add,
        ← Nat.div_div_eq_div_mul] at this
    rw [loadBytes, h0, hr, show 8 * (n + 1) = 8 + 8 * n by ring, pow_add, Nat.mod_mul]
    simp

/-- A load after a store to the same place gives the value stored. -/
theorem loadBytes_storeBytes_same {m : Memory} (hm : Memory.wf m = true) (a v n : Nat) :
    loadBytes (storeBytes m a v n) a n = v % 2 ^ (8 * n) :=
  loadBytes_of_bytes fun _ hk => readByte_storeBytes_inside hm v hk

/-- A load of bytes none of which is stored gives what it gave before. -/
theorem loadBytes_storeBytes_apart (m : Memory) {a n b k : Nat} (v : Nat) (h : b + k ≤ a ∨ a + n ≤ b) :
    loadBytes (storeBytes m a v n) b k = loadBytes m b k :=
  loadBytes_congr fun _ _ => readByte_storeBytes_outside m v (by omega)

theorem loadBytes_lt (m : Memory) (a n : Nat) : loadBytes m a n < 2 ^ (8 * n) := by
  induction n generalizing a with
  | zero => simp [loadBytes]
  | succ n ih =>
    have h1 := (readByte m a).isLt
    have h2 := ih (a + 1)
    rw [loadBytes, show 8 * (n + 1) = 8 + 8 * n by ring, pow_add]
    omega

theorem loadBytes_eq_sum (m : Memory) (a n : Nat) :
    loadBytes m a n = ((List.range n).map fun k => (readByte m (a + k)).toNat * 2 ^ (8 * k)).sum := by
  induction n generalizing a with
  | zero => rfl
  | succ n ih =>
    rw [loadBytes, ih, List.range_succ_eq_map, List.map_cons, List.sum_cons, List.map_map, ← List.sum_map_mul_left]
    simp only [Nat.add_zero, Nat.mul_zero, pow_zero, Nat.mul_one, Function.comp_def]
    congr 2
    refine List.map_congr_left fun k _ => ?_
    rw [show a + (k + 1) = a + 1 + k by omega, show 8 * (k + 1) = 8 * k + 8 by ring, pow_add]
    ring

/-! ## Equal memories are equal data -/

/-- Two canonical memories that read the same everywhere are the same list. -/
theorem memory_ext {m n : Memory} (hm : Memory.wf m = true) (hn : Memory.wf n = true)
    (h : ∀ a, readByte m a = readByte n a) : m = n := by
  induction m generalizing n with
  | nil =>
    cases n with
    | nil => rfl
    | cons d rest =>
      obtain ⟨k, e⟩ := d
      exact absurd (by simpa [readByte] using (h k).symm) ((wf_cons k e rest).mp hn).1
  | cons c m ih =>
    obtain ⟨k, d⟩ := c
    obtain ⟨hd, hk, hm'⟩ := (wf_cons k d m).mp hm
    cases n with
    | nil => exact absurd (by simpa [readByte] using h k) hd
    | cons c' n =>
      obtain ⟨k', d'⟩ := c'
      obtain ⟨hd', hk', hn'⟩ := (wf_cons k' d' n).mp hn
      have hkk : k = k' := by
        rcases lt_trichotomy k k' with hlt | heq | hgt
        · have h1 := h k
          rw [readByte_below (m := (k', d') :: n)
            (by rintro c (_ | ⟨_, hc⟩); exacts [hlt, lt_trans hlt (hk' c hc)])] at h1
          exact absurd (by simpa [readByte] using h1) hd
        · exact heq
        · have h1 := h k'
          rw [readByte_below (m := (k, d) :: m)
            (by rintro c (_ | ⟨_, hc⟩); exacts [hgt, lt_trans hgt (hk c hc)])] at h1
          exact absurd (by simpa [readByte] using h1.symm) hd'
      subst hkk
      have hdd : d = d' := by simpa [readByte] using h k
      subst hdd
      rw [ih hm' hn' fun a => ?_]
      have h1 := h a
      by_cases hak : a = k
      · subst hak
        rw [readByte_below hk, readByte_below hk']
      · simpa [readByte, hak] using h1

end Sys2Proof.Machine
end

