-- ==== Sys2Proof/Laws/State.lean ====
section
/-! SUPPORT. One lemma per field per update of the state: what each named update leaves and what it writes. -/

namespace Sys2Proof.Machine

/-! ## Vectors and scans -/

/-- What a set of ways, or an array of sets, reads after one of them is replaced. -/
theorem get_set {n : Nat} {α : Type} (xs : Vector α n) (i j : Fin n) (x : α) :
    (xs.set i.val x i.isLt)[j] = if j = i then x else xs[j] := by
  simp only [Fin.getElem_fin, Vector.getElem_set, Fin.ext_iff, eq_comm]

/-- An ascending scan finds the first index that meets the test. -/
theorem find_finRange {n : Nat} (p : Fin n → Bool) (w : Fin n) :
    (List.finRange n).find? p = some w ↔ p w = true ∧ ∀ v, v < w → p v = false := by
  rw [List.find?_eq_some_iff_getElem]
  simp only [List.getElem_finRange, List.length_finRange, Bool.not_eq_true']
  constructor
  · rintro ⟨hw, i, hi, rfl, h⟩
    exact ⟨hw, fun v hv => h v.val (Fin.lt_def.mp hv)⟩
  · rintro ⟨hw, h⟩
    exact ⟨hw, w.val, w.isLt, rfl, fun j hj => h ⟨j, by omega⟩ (Fin.lt_def.mpr hj)⟩

theorem find_finRange_none {n : Nat} (p : Fin n → Bool) :
    (List.finRange n).find? p = none ↔ ∀ v, p v = false := by
  simp [List.find?_eq_none]

/-- A scan that keeps the last index that meets a test is the first such index from the other end. -/
theorem foldl_keep_last {α : Type} (p : α → Bool) (v : α) (l : List α) :
    l.foldl (fun v w => if p w then w else v) v = (l.reverse.find? p).getD v := by
  induction l using List.reverseRecOn with
  | nil => rfl
  | append_singleton l a ih =>
    rw [List.foldl_append, ih, List.reverse_append]
    by_cases h : p a <;> simp [h]

variable (s : State)

/-! ## emit -/

@[simp] theorem emit_memMB (e : Event) : (emit e s).memMB = s.memMB := rfl
@[simp] theorem emit_tlbCtrMax (e : Event) : (emit e s).tlbCtrMax = s.tlbCtrMax := rfl
@[simp] theorem emit_cr3 (e : Event) : (emit e s).cr3 = s.cr3 := rfl
@[simp] theorem emit_mem (e : Event) : (emit e s).mem = s.mem := rfl
@[simp] theorem emit_tlb (e : Event) : (emit e s).tlb = s.tlb := rfl
@[simp] theorem emit_l1 (e : Event) : (emit e s).l1 = s.l1 := rfl
@[simp] theorem emit_halted (e : Event) : (emit e s).halted = s.halted := rfl
@[simp] theorem emit_requests (e : Event) : (emit e s).requests = s.requests := rfl
@[simp] theorem emit_response (e : Event) : (emit e s).response = s.response := rfl
@[simp] theorem emit_events (e : Event) : (emit e s).events = s.events ++ [e] := rfl

/-! ## respond -/

@[simp] theorem respond_memMB (st : Status) (d : Word) : (respond st d s).memMB = s.memMB := rfl
@[simp] theorem respond_tlbCtrMax (st : Status) (d : Word) : (respond st d s).tlbCtrMax = s.tlbCtrMax := rfl
@[simp] theorem respond_cr3 (st : Status) (d : Word) : (respond st d s).cr3 = s.cr3 := rfl
@[simp] theorem respond_mem (st : Status) (d : Word) : (respond st d s).mem = s.mem := rfl
@[simp] theorem respond_tlb (st : Status) (d : Word) : (respond st d s).tlb = s.tlb := rfl
@[simp] theorem respond_l1 (st : Status) (d : Word) : (respond st d s).l1 = s.l1 := rfl
@[simp] theorem respond_halted (st : Status) (d : Word) : (respond st d s).halted = s.halted := rfl
@[simp] theorem respond_requests (st : Status) (d : Word) : (respond st d s).requests = s.requests := rfl
@[simp] theorem respond_response (st : Status) (d : Word) : (respond st d s).response = some ⟨st, d⟩ := rfl
@[simp] theorem respond_events (st : Status) (d : Word) : (respond st d s).events = s.events := rfl

/-! ## beginRequest -/

@[simp] theorem beginRequest_memMB : (beginRequest s).memMB = s.memMB := rfl
@[simp] theorem beginRequest_tlbCtrMax : (beginRequest s).tlbCtrMax = s.tlbCtrMax := rfl
@[simp] theorem beginRequest_cr3 : (beginRequest s).cr3 = s.cr3 := rfl
@[simp] theorem beginRequest_mem : (beginRequest s).mem = s.mem := rfl
@[simp] theorem beginRequest_tlb : (beginRequest s).tlb = s.tlb := rfl
@[simp] theorem beginRequest_l1 : (beginRequest s).l1 = s.l1 := rfl
@[simp] theorem beginRequest_halted : (beginRequest s).halted = s.halted := rfl
@[simp] theorem beginRequest_requests : (beginRequest s).requests = s.requests := rfl
@[simp] theorem beginRequest_response : (beginRequest s).response = none := rfl
@[simp] theorem beginRequest_events : (beginRequest s).events = [] := rfl

/-! ## putTlbSet -/

@[simp] theorem putTlbSet_memMB (va : VirtAddr) (ways : TlbWays) : (putTlbSet va ways s).memMB = s.memMB := rfl
@[simp] theorem putTlbSet_tlbCtrMax (va : VirtAddr) (ways : TlbWays) : (putTlbSet va ways s).tlbCtrMax = s.tlbCtrMax := rfl
@[simp] theorem putTlbSet_cr3 (va : VirtAddr) (ways : TlbWays) : (putTlbSet va ways s).cr3 = s.cr3 := rfl
@[simp] theorem putTlbSet_mem (va : VirtAddr) (ways : TlbWays) : (putTlbSet va ways s).mem = s.mem := rfl
@[simp] theorem putTlbSet_tlb (va : VirtAddr) (ways : TlbWays) : (putTlbSet va ways s).tlb = s.tlb.set (tlbSet (vpn va)).val ways (tlbSet (vpn va)).isLt := rfl
@[simp] theorem putTlbSet_l1 (va : VirtAddr) (ways : TlbWays) : (putTlbSet va ways s).l1 = s.l1 := rfl
@[simp] theorem putTlbSet_halted (va : VirtAddr) (ways : TlbWays) : (putTlbSet va ways s).halted = s.halted := rfl
@[simp] theorem putTlbSet_requests (va : VirtAddr) (ways : TlbWays) : (putTlbSet va ways s).requests = s.requests := rfl
@[simp] theorem putTlbSet_response (va : VirtAddr) (ways : TlbWays) : (putTlbSet va ways s).response = s.response := rfl
@[simp] theorem putTlbSet_events (va : VirtAddr) (ways : TlbWays) : (putTlbSet va ways s).events = s.events := rfl

/-! ## tlbInsert -/

@[simp] theorem tlbInsert_memMB (va : VirtAddr) (pa : PhysAddr) : (tlbInsert va pa s).memMB = s.memMB := rfl
@[simp] theorem tlbInsert_tlbCtrMax (va : VirtAddr) (pa : PhysAddr) : (tlbInsert va pa s).tlbCtrMax = s.tlbCtrMax := rfl
@[simp] theorem tlbInsert_cr3 (va : VirtAddr) (pa : PhysAddr) : (tlbInsert va pa s).cr3 = s.cr3 := rfl
@[simp] theorem tlbInsert_mem (va : VirtAddr) (pa : PhysAddr) : (tlbInsert va pa s).mem = s.mem := rfl
@[simp] theorem tlbInsert_tlb (va : VirtAddr) (pa : PhysAddr) : (tlbInsert va pa s).tlb = s.tlb.set (tlbSet (vpn va)).val
    (insertWay s.tlbCtrMax (tlbSetOf s va) (tlbTag (vpn va)) pa) (tlbSet (vpn va)).isLt := rfl
@[simp] theorem tlbInsert_l1 (va : VirtAddr) (pa : PhysAddr) : (tlbInsert va pa s).l1 = s.l1 := rfl
@[simp] theorem tlbInsert_halted (va : VirtAddr) (pa : PhysAddr) : (tlbInsert va pa s).halted = s.halted := rfl
@[simp] theorem tlbInsert_requests (va : VirtAddr) (pa : PhysAddr) : (tlbInsert va pa s).requests = s.requests := rfl
@[simp] theorem tlbInsert_response (va : VirtAddr) (pa : PhysAddr) : (tlbInsert va pa s).response = s.response := rfl
@[simp] theorem tlbInsert_events (va : VirtAddr) (pa : PhysAddr) : (tlbInsert va pa s).events = s.events := rfl

/-! ## tlbInvalidate -/

@[simp] theorem tlbInvalidate_memMB : (tlbInvalidate s).memMB = s.memMB := rfl
@[simp] theorem tlbInvalidate_tlbCtrMax : (tlbInvalidate s).tlbCtrMax = s.tlbCtrMax := rfl
@[simp] theorem tlbInvalidate_cr3 : (tlbInvalidate s).cr3 = s.cr3 := rfl
@[simp] theorem tlbInvalidate_mem : (tlbInvalidate s).mem = s.mem := rfl
@[simp] theorem tlbInvalidate_tlb : (tlbInvalidate s).tlb = Tlb.empty := rfl
@[simp] theorem tlbInvalidate_l1 : (tlbInvalidate s).l1 = s.l1 := rfl
@[simp] theorem tlbInvalidate_halted : (tlbInvalidate s).halted = s.halted := rfl
@[simp] theorem tlbInvalidate_requests : (tlbInvalidate s).requests = s.requests := rfl
@[simp] theorem tlbInvalidate_response : (tlbInvalidate s).response = s.response := rfl
@[simp] theorem tlbInvalidate_events : (tlbInvalidate s).events = s.events := rfl

/-! ## putL1Set -/

@[simp] theorem putL1Set_memMB (pa : PhysAddr) (ways : L1Ways) : (putL1Set pa ways s).memMB = s.memMB := rfl
@[simp] theorem putL1Set_tlbCtrMax (pa : PhysAddr) (ways : L1Ways) : (putL1Set pa ways s).tlbCtrMax = s.tlbCtrMax := rfl
@[simp] theorem putL1Set_cr3 (pa : PhysAddr) (ways : L1Ways) : (putL1Set pa ways s).cr3 = s.cr3 := rfl
@[simp] theorem putL1Set_mem (pa : PhysAddr) (ways : L1Ways) : (putL1Set pa ways s).mem = s.mem := rfl
@[simp] theorem putL1Set_tlb (pa : PhysAddr) (ways : L1Ways) : (putL1Set pa ways s).tlb = s.tlb := rfl
@[simp] theorem putL1Set_l1 (pa : PhysAddr) (ways : L1Ways) : (putL1Set pa ways s).l1 = s.l1.set (l1Set pa).val ways (l1Set pa).isLt := rfl
@[simp] theorem putL1Set_halted (pa : PhysAddr) (ways : L1Ways) : (putL1Set pa ways s).halted = s.halted := rfl
@[simp] theorem putL1Set_requests (pa : PhysAddr) (ways : L1Ways) : (putL1Set pa ways s).requests = s.requests := rfl
@[simp] theorem putL1Set_response (pa : PhysAddr) (ways : L1Ways) : (putL1Set pa ways s).response = s.response := rfl
@[simp] theorem putL1Set_events (pa : PhysAddr) (ways : L1Ways) : (putL1Set pa ways s).events = s.events := rfl

/-! ## l1Invalidate -/

@[simp] theorem l1Invalidate_memMB : (l1Invalidate s).memMB = s.memMB := rfl
@[simp] theorem l1Invalidate_tlbCtrMax : (l1Invalidate s).tlbCtrMax = s.tlbCtrMax := rfl
@[simp] theorem l1Invalidate_cr3 : (l1Invalidate s).cr3 = s.cr3 := rfl
@[simp] theorem l1Invalidate_mem : (l1Invalidate s).mem = s.mem := rfl
@[simp] theorem l1Invalidate_tlb : (l1Invalidate s).tlb = s.tlb := rfl
@[simp] theorem l1Invalidate_l1 : (l1Invalidate s).l1 = L1.empty := rfl
@[simp] theorem l1Invalidate_halted : (l1Invalidate s).halted = s.halted := rfl
@[simp] theorem l1Invalidate_requests : (l1Invalidate s).requests = s.requests := rfl
@[simp] theorem l1Invalidate_response : (l1Invalidate s).response = s.response := rfl
@[simp] theorem l1Invalidate_events : (l1Invalidate s).events = s.events := rfl

/-! ## takeException -/

@[simp] theorem takeException_memMB (e : Exception) : (takeException e s).memMB = s.memMB := by
  cases e <;> simp [takeException]
@[simp] theorem takeException_tlbCtrMax (e : Exception) : (takeException e s).tlbCtrMax = s.tlbCtrMax := by
  cases e <;> simp [takeException]
@[simp] theorem takeException_cr3 (e : Exception) : (takeException e s).cr3 = s.cr3 := by
  cases e <;> simp [takeException]
@[simp] theorem takeException_mem (e : Exception) : (takeException e s).mem = s.mem := by
  cases e <;> simp [takeException]
@[simp] theorem takeException_tlb (e : Exception) : (takeException e s).tlb = s.tlb := by
  cases e <;> simp [takeException]
@[simp] theorem takeException_l1 (e : Exception) : (takeException e s).l1 = s.l1 := by
  cases e <;> simp [takeException]
@[simp] theorem takeException_halted (e : Exception) : (takeException e s).halted = (s.halted || e == .outOfBounds) := by
  cases e <;> simp [takeException]
@[simp] theorem takeException_requests (e : Exception) : (takeException e s).requests = s.requests := by
  cases e <;> simp [takeException]
@[simp] theorem takeException_response (e : Exception) : (takeException e s).response = some ⟨exceptionStatus e, 0#64⟩ := by
  cases e <;> simp [takeException]
@[simp] theorem takeException_events (e : Exception) : (takeException e s).events = s.events := by
  cases e <;> simp [takeException]

end Sys2Proof.Machine
end

