-- ==== Sys2Proof/Laws/Ops.lean ====
section
/-! SUPPORT. What the shared operations answer: bounds-checked accesses, the table view, and the frame of an operation. -/

namespace Sys2Proof.Machine

/-! ## Accesses -/

theorem memBytes_eq (s : State) : memBytes s = s.memMB * 2 ^ 20 := Nat.mul_comm _ _

theorem inBounds_iff (s : State) (a n : Nat) : inBounds s a n = true ↔ a + n ≤ memBytes s := by
  rw [inBounds, decide_eq_true_eq, Nat.add_comm]

theorem inBounds_false_iff (s : State) (a n : Nat) : inBounds s a n = false ↔ memBytes s < a + n := by
  rw [← Bool.not_eq_true, inBounds_iff, not_le]

theorem memRead_inside {s : State} {a n : Nat} (h : a + n ≤ memBytes s) : memRead s a n = .ok (loadBytes s.mem a n) := by
  rw [memRead, (inBounds_iff s a n).mpr h, if_pos rfl]

theorem memRead_outside {s : State} {a n : Nat} (h : ¬a + n ≤ memBytes s) : memRead s a n = .error .outOfBounds := by
  rw [memRead, (inBounds_false_iff s a n).mpr (not_le.mp h)]
  rfl

theorem memWrite_inside {s : State} {a n : Nat} (v : Nat) (h : a + n ≤ memBytes s) :
    memWrite s a n v = .ok { s with mem := storeBytes s.mem a v n } := by
  rw [memWrite, (inBounds_iff s a n).mpr h, if_pos rfl]

theorem memWrite_outside {s : State} {a n : Nat} (v : Nat) (h : ¬a + n ≤ memBytes s) :
    memWrite s a n v = .error .outOfBounds := by
  rw [memWrite, (inBounds_false_iff s a n).mpr (not_le.mp h)]
  rfl

/-- R107: the whole-table check decides alone. -/
theorem tableRead_inside {s : State} {t : PhysAddr} (i : TableIndex) (h : t.toNat + 4096 ≤ memBytes s) :
    tableRead s t i = .ok (BitVec.ofNat 64 (loadBytes s.mem (slotAddr t i) 8)) := by
  have hs := slotAddr_inside t i
  rw [tableRead, (inBounds_iff s _ _).mpr h, if_pos rfl, memRead_inside (le_trans hs.2 h)]

theorem tableRead_outside {s : State} {t : PhysAddr} (i : TableIndex) (h : ¬t.toNat + 4096 ≤ memBytes s) :
    tableRead s t i = .error .outOfBounds := by
  rw [tableRead, (inBounds_false_iff s _ _).mpr (not_le.mp h)]
  rfl

/-- R108: the whole-table check decides alone. -/
theorem tableWrite_inside {s : State} {t : PhysAddr} (i : TableIndex) (e : Word) (h : t.toNat + 4096 ≤ memBytes s) :
    tableWrite s t i e = .ok { s with mem := storeBytes s.mem (slotAddr t i) e.toNat 8 } := by
  have hs := slotAddr_inside t i
  rw [tableWrite, (inBounds_iff s _ _).mpr h, if_pos rfl, memWrite_inside _ (le_trans hs.2 h)]

theorem tableWrite_outside {s : State} {t : PhysAddr} (i : TableIndex) (e : Word) (h : ¬t.toNat + 4096 ≤ memBytes s) :
    tableWrite s t i e = .error .outOfBounds := by
  rw [tableWrite, (inBounds_false_iff s _ _).mpr (not_le.mp h)]
  rfl

/-- A table read depends on the parameters and memory only. -/
theorem tableRead_congr {s t : State} (hb : t.memMB = s.memMB) (hm : t.mem = s.mem) (a : PhysAddr) (i : TableIndex) :
    tableRead t a i = tableRead s a i := by
  have he : memBytes t = memBytes s := by rw [memBytes, memBytes, hb]
  by_cases h : a.toNat + 4096 ≤ memBytes s
  · rw [tableRead_inside i h, tableRead_inside i (he ▸ h), hm]
  · rw [tableRead_outside i h, tableRead_outside i (he ▸ h)]

/-! ## The frame of an operation -/

theorem whenRunning_halted {s : State} (h : s.halted = true) (k : Host.Outcome State Fault Refusal) :
    whenRunning s k = .refused .halted := by
  simp [whenRunning, h]

theorem whenRunning_running {s : State} (h : s.halted = false) (k : Host.Outcome State Fault Refusal) :
    whenRunning s k = k := by
  simp [whenRunning, h]

theorem whenRunning_next {s t : State} {k : Host.Outcome State Fault Refusal} (h : whenRunning s k = .next t) :
    s.halted = false ∧ k = .next t := by
  unfold whenRunning at h
  split at h
  · exact nomatch h
  · exact ⟨by simpa using ‹¬s.halted = true›, h⟩

theorem whenAligned_next {a : PhysAddr} {t : State} {k : Host.Outcome State Fault Refusal}
    (h : whenAligned a k = .next t) : frameAligned a = true ∧ k = .next t := by
  unfold whenAligned at h
  split at h
  · exact ⟨‹_›, h⟩
  · exact nomatch h

/-- The state an operation's body leaves, and its value or exception, decide the answer. -/
theorem perform_ok {body : State → State × Except Exception Word} {s t : State} {v : Word}
    (h : body (beginRequest s) = (t, .ok v)) : perform body s = .next (respond .ok v t) := by
  simp [perform, h]

theorem perform_error {body : State → State × Except Exception Word} {s t : State} {e : Exception}
    (h : body (beginRequest s) = (t, .error e)) : perform body s = .next (takeException e t) := by
  simp [perform, h]

/-- What `perform` can answer: it always gives a next state. -/
theorem perform_cases {body : State → State × Except Exception Word} {s t : State} (h : perform body s = .next t) :
    (∃ u v, body (beginRequest s) = (u, .ok v) ∧ t = respond .ok v u) ∨
      (∃ u e, body (beginRequest s) = (u, .error e) ∧ t = takeException e u) := by
  rcases hb : body (beginRequest s) with ⟨u, e | v⟩
  · rw [perform_error hb] at h
    exact .inr ⟨u, e, rfl, by injection h with h; exact h.symm⟩
  · rw [perform_ok hb] at h
    exact .inl ⟨u, v, rfl, by injection h with h; exact h.symm⟩

end Sys2Proof.Machine
end

