-- ==== Sys2Proof/Laws/L1.lean ====
section
/-! SUPPORT. The laws of the L1 primitives (43_l1_cache R153 to R156). -/

namespace Sys2Proof.Machine

/-! ## Scans -/

theorem l1WayOrder_eq : l1WayOrder = List.finRange 8 := by decide

theorem l1Matches_iff (t : Frame) (w : L1Way) : l1Matches t w = true ↔ w.valid = true ∧ w.tag = t := by
  simp [l1Matches]

theorem l1Matches_false_iff (t : Frame) (w : L1Way) : l1Matches t w = false ↔ ¬(w.valid = true ∧ w.tag = t) := by
  rw [← l1Matches_iff, Bool.not_eq_true]

theorem l1Find_some_iff (s : State) (pa : PhysAddr) (w : Fin 8) :
    l1Find (l1SetOf s pa) (l1Tag pa) = some w ↔ L1Hits s pa w := by
  simp only [l1Find, l1WayOrder_eq, find_finRange, l1Matches_iff, l1Matches_false_iff]

theorem l1Find_none_iff (s : State) (pa : PhysAddr) : l1Find (l1SetOf s pa) (l1Tag pa) = none ↔ L1Misses s pa := by
  simp only [l1Find, l1WayOrder_eq, find_finRange_none, l1Matches_false_iff]

/-- An address hits in exactly one way, its first match, or misses. -/
theorem l1_hits_or_misses (s : State) (pa : PhysAddr) : (∃ w, L1Hits s pa w) ∨ L1Misses s pa := by
  rcases h : l1Find (l1SetOf s pa) (l1Tag pa) with _ | w
  · exact .inr ((l1Find_none_iff s pa).mp h)
  · exact .inl ⟨w, (l1Find_some_iff s pa w).mp h⟩

theorem l1_hits_not_misses {s : State} {pa : PhysAddr} {w : Fin 8} (h : L1Hits s pa w) : ¬L1Misses s pa :=
  fun hm => hm w h.1

theorem l1_hits_unique {s : State} {pa : PhysAddr} {v w : Fin 8} (hv : L1Hits s pa v) (hw : L1Hits s pa w) : v = w := by
  rw [← l1Find_some_iff] at hv hw
  exact Option.some.inj (hv.symm.trans hw)

/-- The hit way of an address depends on the L1, the set and the tag only. -/
theorem l1Hits_congr {s t : State} {p q : PhysAddr} (ht : t.l1 = s.l1) (hs : l1Set q = l1Set p) (hg : l1Tag q = l1Tag p)
    (w : Fin 8) : L1Hits t q w ↔ L1Hits s p w := by
  simp only [L1Hits, l1SetOf, ht, hs, hg]

theorem l1Misses_congr {s t : State} {p q : PhysAddr} (ht : t.l1 = s.l1) (hs : l1Set q = l1Set p)
    (hg : l1Tag q = l1Tag p) : L1Misses t q ↔ L1Misses s p := by
  simp only [L1Misses, l1SetOf, ht, hs, hg]

/-! ## Lookup and fill -/

theorem l1Lookup_hit {s : State} {pa : PhysAddr} {w : Fin 8} (h : L1Hits s pa w) :
    l1Lookup pa s = some (l1SetOf s pa)[w].line[l1Byte pa] := by
  simp only [l1Lookup, (l1Find_some_iff s pa w).mpr h]

theorem l1Lookup_miss {s : State} {pa : PhysAddr} (h : L1Misses s pa) : l1Lookup pa s = none := by
  simp only [l1Lookup, (l1Find_none_iff s pa).mpr h]

theorem loadLine_get (m : Memory) (base : Nat) (k : Fin 64) : (loadLine m base)[k] = readByte m (base + k.val) := by
  simp [loadLine]

/-- The byte select of a line just loaded is the byte of memory. -/
theorem loadLine_byte (m : Memory) (pa : PhysAddr) : (loadLine m (l1Base pa).toNat)[l1Byte pa] = readByte m pa.toNat := by
  rw [loadLine_get, ← toNat_eq_l1Base_add]

/-- R155: MEM_BYTES is a multiple of 64, so a block is inside memory when its byte is. -/
theorem block_inside_iff (s : State) (pa : PhysAddr) : (l1Base pa).toNat + 64 ≤ memBytes s ↔ pa.toNat < memBytes s := by
  rw [l1Base_toNat, memBytes]
  omega

theorem l1Fill_inside {s : State} {pa : PhysAddr} (h : pa.toNat < memBytes s) :
    l1Fill pa s =
      .ok (putL1Set pa (fillWay (l1SetOf s pa) (l1Tag pa) (loadLine s.mem (l1Base pa).toNat)) s,
        readByte s.mem pa.toNat) := by
  rw [l1Fill, (inBounds_iff s _ _).mpr ((block_inside_iff s pa).mpr h), if_pos rfl, ← loadLine_byte]

theorem l1Fill_outside {s : State} {pa : PhysAddr} (h : memBytes s ≤ pa.toNat) : l1Fill pa s = .error .outOfBounds := by
  have hb : ¬(l1Base pa).toNat + 64 ≤ memBytes s := fun hc => not_lt.mpr h ((block_inside_iff s pa).mp hc)
  rw [l1Fill, (inBounds_false_iff s _ _).mpr (not_le.mp hb)]
  rfl

/-- Everything a fill that succeeds does: the byte is inside memory, the victim way of the set takes the block, and the byte of
memory is the value. -/
theorem l1Fill_ok {s t : State} {pa : PhysAddr} {b : Byte} (h : l1Fill pa s = .ok (t, b)) :
    pa.toNat < memBytes s ∧ b = readByte s.mem pa.toNat ∧
      t = putL1Set pa (fillWay (l1SetOf s pa) (l1Tag pa) (loadLine s.mem (l1Base pa).toNat)) s := by
  rcases lt_or_ge pa.toNat (memBytes s) with hp | hp
  · rw [l1Fill_inside hp] at h
    injection h with h
    injection h with ht hb
    exact ⟨hp, hb.symm, ht.symm⟩
  · rw [l1Fill_outside hp] at h
    exact nomatch h

/-! ## Victim -/

theorem l1Victim_eq (ways : L1Ways) :
    l1Victim ways = ((List.finRange 8).reverse.find? fun w => !ways[w].valid).getD 0 := by
  rw [l1Victim, l1WayOrder_eq, ← foldl_keep_last]
  congr 1
  funext v w
  simp only [laterInvalid]
  cases ways[w].valid <;> rfl

theorem l1Victim_of_full {ways : L1Ways} (h : ∀ w : Fin 8, ways[w].valid = true) : l1Victim ways = 0 := by
  rw [l1Victim_eq, List.find?_eq_none.mpr fun w _ => by rw [h w]; decide]
  rfl

theorem l1Victim_of_invalid {ways : L1Ways} (h : ∃ w : Fin 8, ways[w].valid = false) :
    ways[l1Victim ways].valid = false ∧ ∀ w : Fin 8, l1Victim ways < w → ways[w].valid = true := by
  rcases hf : (List.finRange 8).reverse.find? fun w => !ways[w].valid with _ | v
  · rw [List.find?_eq_none] at hf
    obtain ⟨w, hw⟩ := h
    exact absurd (by rw [hw]; rfl) (hf w (by simp))
  · obtain rfl : v = l1Victim ways := by rw [l1Victim_eq, hf]; rfl
    obtain ⟨hp, as, bs, hl, has⟩ := List.find?_eq_some_iff_append.mp hf
    rw [Bool.not_eq_true'] at hp
    refine ⟨hp, fun w hw => ?_⟩
    have hmem : w ∈ as ++ l1Victim ways :: bs := hl ▸ (List.mem_reverse.mpr (List.mem_finRange w))
    have hsort : (as ++ l1Victim ways :: bs).Pairwise (· > ·) := by
      rw [← hl, List.pairwise_reverse]
      exact List.pairwise_lt_finRange 8
    rcases List.mem_append.mp hmem with h1 | h1
    · have := has w h1
      rwa [Bool.not_not] at this
    · rcases List.mem_cons.mp h1 with rfl | h2
      · exact absurd hw (lt_irrefl _)
      · exact absurd hw (not_lt.mpr (le_of_lt ((List.pairwise_cons.mp (List.pairwise_append.mp hsort).2.1).1 w h2)))

theorem fillWay_get (ways : L1Ways) (t : Frame) (data : Line) (w : Fin 8) :
    (fillWay ways t data)[w] = if w = l1Victim ways then { valid := true, tag := t, line := data } else ways[w] := by
  rw [fillWay, get_set]

theorem l1Empty_get (i : Fin 64) (w : Fin 8) : L1.empty[i][w] = L1Way.empty := by
  simp [L1.empty]

@[simp] theorem l1SetOf_putL1Set (s : State) (pa : PhysAddr) (ways : L1Ways) : l1SetOf (putL1Set pa ways s) pa = ways := by
  simp [l1SetOf]

theorem l1_putL1Set_get (s : State) (pa : PhysAddr) (ways : L1Ways) (i : Fin 64) :
    (putL1Set pa ways s).l1[i] = if i = l1Set pa then ways else s.l1[i] := by
  rw [putL1Set_l1, get_set]

/-- R31: a set whose valid tags are unique, none of them `t`, has unique valid tags after a fill of `t`. -/
theorem fillWay_unique {ways : L1Ways} {t : Frame} {data : Line}
    (hu : ∀ v w : Fin 8, ways[v].valid = true → ways[w].valid = true → ways[v].tag = ways[w].tag → v = w)
    (ht : ∀ v : Fin 8, ¬(ways[v].valid = true ∧ ways[v].tag = t)) (v w : Fin 8)
    (hv : (fillWay ways t data)[v].valid = true) (hw : (fillWay ways t data)[w].valid = true)
    (h : (fillWay ways t data)[v].tag = (fillWay ways t data)[w].tag) : v = w := by
  rw [fillWay_get] at hv hw
  rw [fillWay_get, fillWay_get] at h
  split_ifs at hv hw h with h1 h2 h2
  · rw [h1, h2]
  · exact absurd ⟨hw, h.symm⟩ (ht w)
  · exact absurd ⟨hv, h⟩ (ht v)
  · exact hu v w hv hw h

end Sys2Proof.Machine
end

