-- ==== Sys2Proof/Laws/Tlb.lean ====
section
/-! SUPPORT. The laws of the TLB primitives (42_tlb R122 to R126). -/

namespace Sys2Proof.Machine

/-! ## Scans -/

theorem tlbWayOrder_eq : tlbWayOrder = List.finRange 4 := by decide

theorem tlbMatches_iff (t : Word) (w : TlbWay) : tlbMatches t w = true ↔ w.valid = true ∧ w.tag = t := by
  simp [tlbMatches]

theorem tlbMatches_false_iff (t : Word) (w : TlbWay) : tlbMatches t w = false ↔ ¬(w.valid = true ∧ w.tag = t) := by
  rw [← tlbMatches_iff, Bool.not_eq_true]

theorem tlbFind_some_iff (s : State) (va : VirtAddr) (w : Fin 4) :
    tlbFind (tlbSetOf s va) (tlbTag (vpn va)) = some w ↔ TlbHits s va w := by
  simp only [tlbFind, tlbWayOrder_eq, find_finRange, tlbMatches_iff, tlbMatches_false_iff]

theorem tlbFind_none_iff (s : State) (va : VirtAddr) :
    tlbFind (tlbSetOf s va) (tlbTag (vpn va)) = none ↔ TlbMisses s va := by
  simp only [tlbFind, tlbWayOrder_eq, find_finRange_none, tlbMatches_false_iff]

/-- An address hits in exactly one way, its first match, or misses. -/
theorem tlb_hits_or_misses (s : State) (va : VirtAddr) : (∃ w, TlbHits s va w) ∨ TlbMisses s va := by
  rcases h : tlbFind (tlbSetOf s va) (tlbTag (vpn va)) with _ | w
  · exact .inr ((tlbFind_none_iff s va).mp h)
  · exact .inl ⟨w, (tlbFind_some_iff s va w).mp h⟩

theorem tlb_hits_not_misses {s : State} {va : VirtAddr} {w : Fin 4} (h : TlbHits s va w) : ¬TlbMisses s va :=
  fun hm => hm w h.1

theorem tlb_hits_unique {s : State} {va : VirtAddr} {v w : Fin 4} (hv : TlbHits s va v) (hw : TlbHits s va w) : v = w := by
  rw [← tlbFind_some_iff] at hv hw
  exact Option.some.inj (hv.symm.trans hw)

/-- The hit way of an address depends on the TLB and the VPN only. -/
theorem tlbHits_congr {s t : State} {va vb : VirtAddr} (ht : t.tlb = s.tlb) (hv : vpn vb = vpn va) (w : Fin 4) :
    TlbHits t vb w ↔ TlbHits s va w := by
  simp only [TlbHits, tlbSetOf, ht, hv]

theorem tlbMisses_congr {s t : State} {va vb : VirtAddr} (ht : t.tlb = s.tlb) (hv : vpn vb = vpn va) :
    TlbMisses t vb ↔ TlbMisses s va := by
  simp only [TlbMisses, tlbSetOf, ht, hv]

/-! ## Lookup -/

theorem tlbLookup_hit {s : State} {va : VirtAddr} {w : Fin 4} (h : TlbHits s va w) :
    tlbLookup va s = (some (withOffset (tlbSetOf s va)[w].pa va), putTlbSet va (bumpWay s.tlbCtrMax (tlbSetOf s va) w) s) := by
  simp only [tlbLookup, (tlbFind_some_iff s va w).mpr h]

theorem tlbLookup_miss {s : State} {va : VirtAddr} (h : TlbMisses s va) : tlbLookup va s = (none, s) := by
  simp only [tlbLookup, (tlbFind_none_iff s va).mpr h]

theorem bumpWay_get (m : Nat) (ways : TlbWays) (w v : Fin 4) :
    (bumpWay m ways w)[v] = if v = w then { ways[v] with ctr := satInc m ways[v].ctr } else ways[v] := by
  rw [bumpWay, get_set]
  split
  · next h => rw [h]
  · rfl

/-! ## Victim and insert -/

theorem tlbVictim_of_invalid {ways : TlbWays} (h : ∃ w : Fin 4, ways[w].valid = false) :
    ways[tlbVictim ways].valid = false ∧ ∀ w : Fin 4, w < tlbVictim ways → ways[w].valid = true := by
  rcases hf : tlbWayOrder.find? fun w => !ways[w].valid with _ | v
  · rw [tlbWayOrder_eq, find_finRange_none] at hf
    obtain ⟨w, hw⟩ := h
    have := hf w
    rw [hw] at this
    exact absurd this (by decide)
  · obtain rfl : v = tlbVictim ways := by simp only [tlbVictim, hf]
    rw [tlbWayOrder_eq, find_finRange] at hf
    refine ⟨?_, fun w hw => ?_⟩
    · have := hf.1
      rwa [Bool.not_eq_true'] at this
    · have := hf.2 w hw
      rwa [Bool.not_eq_false'] at this

theorem tlbVictim_of_full {ways : TlbWays} (h : ∀ w : Fin 4, ways[w].valid = true) :
    tlbVictim ways = [1, 2, 3].foldl (lowerCounter ways) 0 := by
  have hf : (tlbWayOrder.find? fun w => !ways[w].valid) = none := by
    rw [tlbWayOrder_eq, find_finRange_none]
    exact fun v => by rw [h v]; rfl
  simp only [tlbVictim, hf]

theorem clearCounters_get (ways : TlbWays) (w : Fin 4) : (clearCounters ways)[w] = { ways[w] with ctr := 0 } := by
  fin_cases w <;> rfl

theorem insertWay_get (m : Nat) (ways : TlbWays) (t : Word) (pa : PhysAddr) (w : Fin 4) :
    (insertWay m ways t pa)[w] =
      if w = tlbVictim ways then { valid := true, tag := t, ctr := satInc m 0, pa := pa }
      else { ways[w] with ctr := 0 } := by
  rw [insertWay, get_set, clearCounters_get]

theorem tlbEmpty_get (i : Fin 128) (w : Fin 4) : Tlb.empty[i][w] = TlbWay.empty := by
  simp [Tlb.empty]

/-- The set of an address after its set is replaced. -/
@[simp] theorem tlbSetOf_putTlbSet (s : State) (va : VirtAddr) (ways : TlbWays) :
    tlbSetOf (putTlbSet va ways s) va = ways := by
  simp [tlbSetOf]

theorem tlb_putTlbSet_get (s : State) (va : VirtAddr) (ways : TlbWays) (i : Fin 128) :
    (putTlbSet va ways s).tlb[i] = if i = tlbSet (vpn va) then ways else s.tlb[i] := by
  rw [putTlbSet_tlb, get_set]

/-- R30: a set whose valid tags are unique, none of them `t`, has unique valid tags after an insert of `t`. -/
theorem insertWay_unique {m : Nat} {ways : TlbWays} {t : Word} {pa : PhysAddr}
    (hu : ∀ v w : Fin 4, ways[v].valid = true → ways[w].valid = true → ways[v].tag = ways[w].tag → v = w)
    (ht : ∀ v : Fin 4, ¬(ways[v].valid = true ∧ ways[v].tag = t)) (v w : Fin 4)
    (hv : (insertWay m ways t pa)[v].valid = true) (hw : (insertWay m ways t pa)[w].valid = true)
    (h : (insertWay m ways t pa)[v].tag = (insertWay m ways t pa)[w].tag) : v = w := by
  rw [insertWay_get] at hv hw
  rw [insertWay_get, insertWay_get] at h
  split_ifs at hv hw h with h1 h2 h2
  · rw [h1, h2]
  · exact absurd ⟨hw, h.symm⟩ (ht w)
  · exact absurd ⟨hv, h⟩ (ht v)
  · exact hu v w hv hw h

end Sys2Proof.Machine
end

