-- ==== Sys2Proof/Laws/Exec.lean ====
section
/-! SUPPORT. Everything an operation can do, said once: the cases of the operations' bodies, and for each instruction what its
next state is when `exec` answers one. -/

namespace Sys2Proof.Machine

/-! ## The bodies -/

theorem walkFrom_congr {s t : State} (hb : t.memMB = s.memMB) (hm : t.mem = s.mem) (va : VirtAddr) (a : PhysAddr)
    (l : List Level) : walkFrom t va a l = walkFrom s va a l := by
  induction l generalizing a with
  | nil => rfl
  | cons k rest ih => simp only [walkFrom, tableRead_congr hb hm, ih]

/-- The walk reads `cr3`, the size of memory and memory, and nothing else (R180). -/
theorem pageWalk_congr {s t : State} (hb : t.memMB = s.memMB) (hc : t.cr3 = s.cr3) (hm : t.mem = s.mem) (va : VirtAddr) :
    pageWalk t va = pageWalk s va := by
  rw [pageWalk, pageWalk, hc, walkFrom_congr hb hm]

theorem translateOp_hit {s : State} {va : VirtAddr} {w : Fin 4} (h : TlbHits s va w) :
    translateOp va s = (emit .tlbHit (putTlbSet va (bumpWay s.tlbCtrMax (tlbSetOf s va) w) s),
      .ok (withOffset (tlbSetOf s va)[w].pa va)) := by
  rw [translateOp, tlbLookup_hit h]

theorem translateOp_walked {s : State} {va : VirtAddr} {f : PhysAddr} (h : TlbMisses s va) (hf : pageWalk s va = .ok f) :
    translateOp va s = (emit .tlbMiss (tlbInsert va (withOffset f va) s), .ok (withOffset f va)) := by
  have hw : pageWalk (emit .tlbMiss s) va = .ok f := by rw [← hf]; exact pageWalk_congr rfl rfl rfl va
  rw [translateOp, tlbLookup_miss h]
  simp only [hw]
  rfl

theorem translateOp_failed {s : State} {va : VirtAddr} {e : Exception} (h : TlbMisses s va)
    (hf : pageWalk s va = .error e) : translateOp va s = (emit .tlbMiss s, .error e) := by
  have hw : pageWalk (emit .tlbMiss s) va = .error e := by rw [← hf]; exact pageWalk_congr rfl rfl rfl va
  rw [translateOp, tlbLookup_miss h]
  simp only [hw]

theorem readPhysOp_hit {s : State} {pa : PhysAddr} {w : Fin 8} (h : L1Hits s pa w) :
    readPhysOp pa s = (emit .l1Hit s, .ok ((l1SetOf s pa)[w].line[l1Byte pa].setWidth 64)) := by
  rw [readPhysOp, l1Lookup_hit h]

theorem readPhysOp_filled {s : State} {pa : PhysAddr} (h : L1Misses s pa) (hpa : pa.toNat < memBytes s) :
    readPhysOp pa s =
      (emit .l1Miss (putL1Set pa (fillWay (l1SetOf s pa) (l1Tag pa) (loadLine s.mem (l1Base pa).toNat)) s),
        .ok ((readByte s.mem pa.toNat).setWidth 64)) := by
  have hf := l1Fill_inside (s := emit .l1Miss s) (pa := pa) hpa
  rw [readPhysOp, l1Lookup_miss h]
  simp only [hf]
  rfl

theorem readPhysOp_failed {s : State} {pa : PhysAddr} (h : L1Misses s pa) (hpa : memBytes s ≤ pa.toNat) :
    readPhysOp pa s = (emit .l1Miss s, .error .outOfBounds) := by
  have hf := l1Fill_outside (s := emit .l1Miss s) (pa := pa) hpa
  rw [readPhysOp, l1Lookup_miss h]
  simp only [hf]

theorem editOp_inside {s : State} {a : PhysAddr} (i : TableIndex) (e : Word) (h : a.toNat + 4096 ≤ memBytes s) :
    editOp a i e s = ({ s with mem := storeBytes s.mem (slotAddr a i) e.toNat 8 }, .ok 0#64) := by
  rw [editOp, tableWrite_inside i e h]

theorem editOp_outside {s : State} {a : PhysAddr} (i : TableIndex) (e : Word) (h : ¬a.toNat + 4096 ≤ memBytes s) :
    editOp a i e s = (s, .error .outOfBounds) := by
  rw [editOp, tableWrite_outside i e h]

/-- A body's states, compared outside the channels. -/
theorem beginRequest_eq (s : State) : beginRequest s = { s with response := none, events := [] } := rfl

/-! ## What each instruction can do -/

/-- TRANSLATE answers one of three ways: a hit, a walk that ends, a walk that fails. -/
theorem execTranslate_next {s t : State} {va : VirtAddr} (h : exec (.translate va) s = .next t) :
    s.halted = false ∧
    ((∃ w, TlbHits s va w ∧ t = { s with
        tlb := (putTlbSet va (bumpWay s.tlbCtrMax (tlbSetOf s va) w) s).tlb
        response := some ⟨.ok, withOffset (tlbSetOf s va)[w].pa va⟩, events := [.tlbHit] }) ∨
      (TlbMisses s va ∧ ∃ f, pageWalk s va = .ok f ∧ t = { s with
        tlb := (tlbInsert va (withOffset f va) s).tlb
        response := some ⟨.ok, withOffset f va⟩, events := [.tlbMiss] }) ∨
      (TlbMisses s va ∧ ∃ e, pageWalk s va = .error e ∧ t = { s with
        halted := e == .outOfBounds, response := some ⟨exceptionStatus e, 0#64⟩, events := [.tlbMiss] })) := by
  obtain ⟨hs, h⟩ := whenRunning_next h
  refine ⟨hs, ?_⟩
  rcases tlb_hits_or_misses s va with ⟨w, hw⟩ | hm
  · have hb := translateOp_hit (s := beginRequest s) (va := va) (w := w) hw
    rw [perform_ok hb] at h
    injection h with h
    exact .inl ⟨w, hw, h.symm⟩
  · rcases hp : pageWalk s va with e | f
    · have hb := translateOp_failed (s := beginRequest s) (va := va) hm
        ((pageWalk_congr (s := s) rfl rfl rfl va).trans hp)
      rw [perform_error hb] at h
      injection h with h
      refine .inr (.inr ⟨hm, e, rfl, ?_⟩)
      subst h
      cases e
      · simp only [takeException, respond, emit, beginRequest, List.nil_append, hs]; rfl
      · rfl
    · have hb := translateOp_walked (s := beginRequest s) (va := va) hm
        ((pageWalk_congr (s := s) rfl rfl rfl va).trans hp)
      rw [perform_ok hb] at h
      injection h with h
      exact .inr (.inl ⟨hm, f, rfl, h.symm⟩)

/-- READ_PHYS answers one of three ways: a hit, a fill, a block outside memory. -/
theorem execReadPhys_next {s t : State} {pa : PhysAddr} (h : exec (.readPhys pa) s = .next t) :
    s.halted = false ∧
    ((∃ w, L1Hits s pa w ∧ t = { s with
        response := some ⟨.ok, (l1SetOf s pa)[w].line[l1Byte pa].setWidth 64⟩, events := [.l1Hit] }) ∨
      (L1Misses s pa ∧ pa.toNat < memBytes s ∧ t = { s with
        l1 := (putL1Set pa (fillWay (l1SetOf s pa) (l1Tag pa) (loadLine s.mem (l1Base pa).toNat)) s).l1
        response := some ⟨.ok, (readByte s.mem pa.toNat).setWidth 64⟩, events := [.l1Miss] }) ∨
      (L1Misses s pa ∧ memBytes s ≤ pa.toNat ∧ t = { s with
        halted := true, response := some ⟨.fatal, 0#64⟩, events := [.l1Miss] })) := by
  obtain ⟨hs, h⟩ := whenRunning_next h
  refine ⟨hs, ?_⟩
  rcases l1_hits_or_misses s pa with ⟨w, hw⟩ | hm
  · rw [perform_ok (readPhysOp_hit (s := beginRequest s) (pa := pa) (w := w) hw)] at h
    injection h with h
    exact .inl ⟨w, hw, h.symm⟩
  · rcases lt_or_ge pa.toNat (memBytes s) with hp | hp
    · rw [perform_ok (readPhysOp_filled (s := beginRequest s) hm hp)] at h
      injection h with h
      exact .inr (.inl ⟨hm, hp, h.symm⟩)
    · rw [perform_error (readPhysOp_failed (s := beginRequest s) hm hp)] at h
      injection h with h
      exact .inr (.inr ⟨hm, hp, h.symm⟩)

/-- The body of READ after a translation that succeeded. -/
theorem readOp_translated {s t : State} {va : VirtAddr} {pa : PhysAddr} (h : translateOp va s = (t, .ok pa)) :
    readOp va s = readPhysOp pa t := by
  rw [readOp, h]

/-- The body of READ after a translation that failed. -/
theorem readOp_failed {s t : State} {va : VirtAddr} {e : Exception} (h : translateOp va s = (t, .error e)) :
    readOp va s = (t, .error e) := by
  rw [readOp, h]

/-- `read_phys` looks at no TLB and at no pulse: run in a state that differs there, it gives the same value and adds the same
pulse. -/
theorem readPhysOp_frame (pa : PhysAddr) (s : State) (tlb : Tlb) (e : List Event) :
    readPhysOp pa { s with tlb := tlb, events := e } =
      ({ (readPhysOp pa { s with events := [] }).1 with
          tlb := tlb, events := e ++ (readPhysOp pa { s with events := [] }).1.events },
        (readPhysOp pa { s with events := [] }).2) := by
  rcases l1_hits_or_misses s pa with ⟨w, hw⟩ | hm
  · rw [readPhysOp_hit (s := { s with tlb := tlb, events := e }) (w := w) hw,
      readPhysOp_hit (s := { s with events := [] }) (w := w) hw]
    rfl
  · rcases lt_or_ge pa.toNat (memBytes s) with hp | hp
    · rw [readPhysOp_filled (s := { s with tlb := tlb, events := e }) hm hp,
        readPhysOp_filled (s := { s with events := [] }) hm hp]
      rfl
    · rw [readPhysOp_failed (s := { s with tlb := tlb, events := e }) hm hp,
        readPhysOp_failed (s := { s with events := [] }) hm hp]
      rfl

/-- READ answers as its translation does when that fails; otherwise it leaves the translation's TLB and answers with
`read_phys` of its result, whose own next state `u` is the one READ_PHYS gives from the same L1 and memory. -/
theorem execRead_next {s t : State} {va : VirtAddr} (h : exec (.read va) s = .next t) :
    s.halted = false ∧ ∃ u, exec (.translate va) s = .next u ∧
      (((∀ pa, u.response ≠ some ⟨.ok, pa⟩) ∧ t = u) ∨
        ∃ pa v, u.response = some ⟨.ok, pa⟩ ∧ exec (.readPhys pa) s = .next v ∧
          t = { s with tlb := u.tlb, l1 := v.l1, halted := v.halted, response := v.response, events := u.events ++ v.events }) := by
  obtain ⟨hs, h⟩ := whenRunning_next h
  refine ⟨hs, ?_⟩
  have hx : exec (.translate va) s = perform (translateOp va) s := whenRunning_running hs _
  have hy : ∀ pa, exec (.readPhys pa) s = perform (readPhysOp pa) s := fun pa => whenRunning_running hs _
  -- what a successful translation leaves, in whichever way it succeeded
  have key : ∀ (tlb : Tlb) (e : List Event) (pa : PhysAddr),
      translateOp va (beginRequest s) = ({ s with tlb := tlb, response := none, events := e }, .ok pa) →
      ∃ u, exec (.translate va) s = .next u ∧
        (((∀ pa, u.response ≠ some ⟨.ok, pa⟩) ∧ t = u) ∨
          ∃ pa v, u.response = some ⟨.ok, pa⟩ ∧ exec (.readPhys pa) s = .next v ∧
            t = { s with tlb := u.tlb, l1 := v.l1, halted := v.halted, response := v.response,
                         events := u.events ++ v.events }) := by
    intro tlb e pa ht
    have hr := readOp_translated ht
    refine ⟨_, hx.trans (perform_ok ht), .inr ⟨pa, ?_⟩⟩
    rcases l1_hits_or_misses s pa with ⟨w, hw⟩ | hm
    · rw [perform_ok (hr.trans (readPhysOp_hit (w := w) hw))] at h
      refine ⟨_, rfl, (hy pa).trans (perform_ok (readPhysOp_hit (w := w) hw)), ?_⟩
      injection h with h
      rw [← h]; rfl
    · rcases lt_or_ge pa.toNat (memBytes s) with hp | hp
      · rw [perform_ok (hr.trans (readPhysOp_filled hm hp))] at h
        refine ⟨_, rfl, (hy pa).trans (perform_ok (readPhysOp_filled hm hp)), ?_⟩
        injection h with h
        rw [← h]; rfl
      · rw [perform_error (hr.trans (readPhysOp_failed hm hp))] at h
        refine ⟨_, rfl, (hy pa).trans (perform_error (readPhysOp_failed hm hp)), ?_⟩
        injection h with h
        rw [← h]; rfl
  rcases tlb_hits_or_misses s va with ⟨w, hw⟩ | hm
  · exact key _ _ _ (translateOp_hit (s := beginRequest s) (w := w) hw)
  · rcases hp : pageWalk s va with e | f
    · have ht := translateOp_failed (s := beginRequest s) (va := va) hm
        ((pageWalk_congr (s := s) rfl rfl rfl va).trans hp)
      refine ⟨_, hx.trans (perform_error ht), .inl ⟨?_, ?_⟩⟩
      · intro pa
        cases e <;> simp [exceptionStatus]
      · rw [perform_error (readOp_failed ht)] at h
        injection h with h
        exact h.symm
    · exact key _ _ _ (translateOp_walked (s := beginRequest s) (va := va) hm
        ((pageWalk_congr (s := s) rfl rfl rfl va).trans hp))

/-- A table edit writes its slot, or halts the block. -/
theorem edit_next {s t : State} {a : PhysAddr} {i : TableIndex} {e : Word}
    (h : whenRunning s (whenAligned a (perform (editOp a i e) s)) = .next t) :
    s.halted = false ∧ frameAligned a = true ∧
    ((a.toNat + 4096 ≤ memBytes s ∧ t = { s with
        mem := storeBytes s.mem (slotAddr a i) e.toNat 8, response := some ⟨.ok, 0#64⟩, events := [] }) ∨
      (¬a.toNat + 4096 ≤ memBytes s ∧ t = { s with
        halted := true, response := some ⟨.fatal, 0#64⟩, events := [] })) := by
  obtain ⟨hs, h⟩ := whenRunning_next h
  obtain ⟨ha, h⟩ := whenAligned_next h
  refine ⟨hs, ha, ?_⟩
  by_cases hb : a.toNat + 4096 ≤ memBytes s
  · rw [perform_ok (editOp_inside (s := beginRequest s) i e hb)] at h
    injection h with h
    exact .inl ⟨hb, h.symm⟩
  · rw [perform_error (editOp_outside (s := beginRequest s) i e hb)] at h
    injection h with h
    exact .inr ⟨hb, h.symm⟩

theorem execMapPage_next {s t : State} {a : PhysAddr} {i : TableIndex} {x : PhysAddr}
    (h : exec (.mapPage a i x) s = .next t) :
    s.halted = false ∧ frameAligned a = true ∧
    ((a.toNat + 4096 ≤ memBytes s ∧ t = { s with
        mem := storeBytes s.mem (slotAddr a i) (newPresent x).toNat 8, response := some ⟨.ok, 0#64⟩, events := [] }) ∨
      (¬a.toNat + 4096 ≤ memBytes s ∧ t = { s with
        halted := true, response := some ⟨.fatal, 0#64⟩, events := [] })) :=
  edit_next h

theorem execUnmapPage_next {s t : State} {a : PhysAddr} {i : TableIndex} (h : exec (.unmapPage a i) s = .next t) :
    s.halted = false ∧ frameAligned a = true ∧
    ((a.toNat + 4096 ≤ memBytes s ∧ t = { s with
        mem := storeBytes s.mem (slotAddr a i) newUnmapped.toNat 8, response := some ⟨.ok, 0#64⟩, events := [] }) ∨
      (¬a.toNat + 4096 ≤ memBytes s ∧ t = { s with
        halted := true, response := some ⟨.fatal, 0#64⟩, events := [] })) :=
  edit_next h

theorem execInvalidateTlb_next {s t : State} (h : exec .invalidateTlb s = .next t) :
    s.halted = false ∧ t = { s with tlb := Tlb.empty, response := some ⟨.ok, 0#64⟩, events := [] } := by
  obtain ⟨hs, h⟩ := whenRunning_next h
  injection h with h
  exact ⟨hs, h.symm⟩

theorem execInvalidateCache_next {s t : State} (h : exec .invalidateCache s = .next t) :
    s.halted = false ∧ t = { s with l1 := L1.empty, response := some ⟨.ok, 0#64⟩, events := [] } := by
  obtain ⟨hs, h⟩ := whenRunning_next h
  injection h with h
  exact ⟨hs, h.symm⟩

theorem execReserved_next {s t : State} {u : BitVec 13} {a b : Word} : exec (.reserved u a b) s ≠ .next t := by
  intro h
  exact nomatch (whenRunning_next h).2

/-! ## The step -/

theorem step_waiting {s : State} (h : s.requests = []) : step s = idle s := by
  unfold step
  rw [h]

theorem step_request {s : State} {r : Request} {rest : List Request} (h : s.requests = r :: rest) :
    step s = serve r { s with requests := rest } := by
  unfold step
  rw [h]

theorem serve_decoded {r : Request} {i : Instr} (h : decode r = .ok i) (s : State) : serve r s = exec i s := by
  simp only [serve, h]

theorem serve_illFormed {r : Request} {why : Malformed} (h : decode r = .error why) (s : State) :
    serve r s = .refused (.illFormed why) := by
  simp only [serve, h]

/-- A step that gives a next state waits with nothing to do, or runs the operation its request decodes to. -/
theorem step_next {s t : State} (h : step s = .next t) :
    (s.requests = [] ∧ s.halted = false ∧ t = s) ∨
      ∃ r rest i, s.requests = r :: rest ∧ decode r = .ok i ∧ exec i { s with requests := rest } = .next t := by
  rcases hr : s.requests with _ | ⟨r, rest⟩
  · rw [step_waiting hr, idle] at h
    split at h
    · exact nomatch h
    · injection h with h
      exact .inl ⟨rfl, by simpa using ‹¬s.halted = true›, h.symm⟩
  · rw [step_request hr] at h
    rcases hd : decode r with why | i
    · rw [serve_illFormed hd] at h
      exact nomatch h
    · rw [serve_decoded hd] at h
      exact .inr ⟨r, rest, i, rfl, hd, h⟩

end Sys2Proof.Machine
end

