-- ==== Sys2Proof/Laws/PerInstr.lean ====
section
/-! SUPPORT. Families of statements made per instruction (LAWS.json). -/

namespace Sys2Proof.Laws.OwnsWord

/-- R63: the command word of the instruction belongs to the instruction's row of the opcode table. -/
def Statement (i : Instr) : Prop :=
  ∃ row, tableRows[(rowOf i).val]? = some row ∧ row.owns (encode i).cmd = true

theorem translate (va : VirtAddr) : Statement (.translate va) := ⟨_, rfl, by simp only [encode]; decide⟩

theorem read (va : VirtAddr) : Statement (.read va) := ⟨_, rfl, by simp only [encode]; decide⟩

theorem readPhys (pa : PhysAddr) : Statement (.readPhys pa) := ⟨_, rfl, by simp only [encode]; decide⟩

/-- The low seven bits of a word whose reserved field is 0 are its op code. -/
theorem commandWord_low (i : TableIndex) (op : BitVec 3) : commandWord i op &&& 0x007F#16 = op.setWidth 16 := by
  ext k hk
  have hm : (0x007F#16)[k] = decide (k < 7) := Machine.lowMask_getElem 7 k hk
  by_cases h7 : k < 7
  · simp [commandWord, hm, h7]
  · simp [commandWord, hm, h7, BitVec.getLsbD_of_ge _ _ (show 3 ≤ k by omega)]

theorem mapPage (tableLoc : PhysAddr) (index : TableIndex) (target : PhysAddr) :
    Statement (.mapPage tableLoc index target) :=
  ⟨_, rfl, beq_iff_eq.mpr (commandWord_low index 3#3)⟩

theorem unmapPage (tableLoc : PhysAddr) (index : TableIndex) : Statement (.unmapPage tableLoc index) :=
  ⟨_, rfl, beq_iff_eq.mpr (commandWord_low index 4#3)⟩

theorem invalidateTlb : Statement .invalidateTlb := ⟨_, rfl, by simp only [encode]; decide⟩

theorem invalidateCache : Statement .invalidateCache := ⟨_, rfl, by simp only [encode]; decide⟩

theorem reserved (upper : BitVec 13) (a b : Word) : Statement (.reserved upper a b) := by
  refine ⟨_, rfl, beq_iff_eq.mpr ?_⟩
  ext k hk
  have hm : (0x0007#16)[k] = decide (k < 3) := Machine.lowMask_getElem 3 k hk
  simp only [encode, reservedWord, BitVec.getElem_and, BitVec.getElem_or, hm]
  by_cases h : k < 3 <;> simp [h]

end Sys2Proof.Laws.OwnsWord
end

