-- ==== Sys2Proof/Tests/Slice0.lean ====
section
/-! SUPPORT. The model's own tests. Expected values are the spec's: 95_test_vectors.md, and the worked examples of the rules named
in each comment. Theorems named `witness_…` show a concrete state and operands that meet the hypotheses of the statement they are
named after, clause by clause. -/

namespace Sys2Proof.Tests

open Sys2Proof.Machine

/-! ## Small states -/

/-- The outcome is a next state that passes a check. -/
def answers (o : Host.Outcome State Fault Refusal) (check : State → Bool) : Bool :=
  match o with
  | .next t => check t
  | _ => false

/-- The outcome is a next state with this response and these pulses. -/
def gives (o : Host.Outcome State Fault Refusal) (status : Status) (data : Word) (events : List Event) : Bool :=
  answers o fun t => t.response == some ⟨status, data⟩ && t.events == events

/-- The outcome is this refusal. -/
def refuses (o : Host.Outcome State Fault Refusal) (why : Refusal) : Bool :=
  match o with
  | .refused r => r == why
  | _ => false

/-- The part of the spec's memory after CHAIN (95 §0) that the tests use: root[10] = F1, F1[0] = F2, F2[0] = F3, F3[0] = F0,
F3[3] = F3. -/
def chainMem : Memory :=
  [(0xF050, 0x01#8), (0xF051, 0x10#8), (0xF052, 0x01#8), (0x11000, 0x01#8), (0x11001, 0x20#8), (0x11002, 0x01#8),
   (0x12000, 0x01#8), (0x12001, 0x30#8), (0x12002, 0x01#8), (0x13000, 0x01#8), (0x13002, 0x01#8),
   (0x13018, 0x01#8), (0x13019, 0x30#8), (0x1301A, 0x01#8)]

/-- The standard fixture with that memory, its TLB and its L1 empty. -/
def chain : State := { State.reset with mem := chainMem }

/-- The virtual address of 95 §1, `va(10,0,0,0,0x123)`. -/
def va0 : VirtAddr := 0x50000000123#64

/-- The fixture with the translation of `va0` in way 0 of TLB set 0, as R181's example leaves it. -/
def cached : State := tlbInsert va0 0x10123#64 chain

/-- A way of the L1 with this tag, its line all 0xAB. -/
def lineOf (t : Frame) : L1Way := { valid := true, tag := t, line := Vector.replicate 64 0xAB#8 }

/-- The fixture with these ways in L1 set 0. -/
def withL1 (ways : L1Ways) : State := putL1Set 0#64 ways chain

/-- The fixture whose L1 set 0 holds the block at 0x13000 in way 7. -/
def lined : State := withL1 #v[.empty, .empty, .empty, .empty, .empty, .empty, .empty, lineOf 0x13#52]

/-- The fixture, halted. -/
def stopped : State := { chain with halted := true }

/-- A block whose root table lies outside its memory (R22, R243). -/
def rootless : State := { State.reset with cr3 := 0x100000#64 }

/-- A table way with this tag and counter. -/
def wayOf (t : Word) (ctr : Nat) : TlbWay := { valid := true, tag := t, ctr := ctr, pa := 0#64 }

/-! ## WellFormed -/

theorem test_wf_map_misaligned : (Instr.mapPage 0xF008#64 1#9 0x11000#64).wellFormed = false := by decide
theorem test_wf_unmap_misaligned : (Instr.unmapPage 0x13FFF#64 0#9).wellFormed = false := by decide
theorem test_wf_map_aligned : (Instr.mapPage 0xF000#64 511#9 0x11FFF#64).wellFormed = true := by decide

/-! ## Decoding: words written out from R61 and R63, field by field (IDX, RSV, OP) -/

theorem test_decode_translate : decode ⟨0b000000000_0000_000#16, 0x50000000123#64, 0#64⟩ = .ok (.translate 0x50000000123#64) := by
  decide
theorem test_decode_read : decode ⟨0b000000000_0000_001#16, 0x50000003002#64, 0#64⟩ = .ok (.read 0x50000003002#64) := by decide
theorem test_decode_read_phys : decode ⟨0b000000000_0000_010#16, 0xF051#64, 0#64⟩ = .ok (.readPhys 0xF051#64) := by decide
theorem test_decode_map_page :
    decode ⟨0b000001010_0000_011#16, 0xF000#64, 0x11000#64⟩ = .ok (.mapPage 0xF000#64 10#9 0x11000#64) := by decide
theorem test_decode_unmap_page :
    decode ⟨0b111111111_0000_100#16, 0x13000#64, 0#64⟩ = .ok (.unmapPage 0x13000#64 511#9) := by decide
theorem test_decode_invalidate_tlb : decode ⟨0b000000000_0000_101#16, 0#64, 0#64⟩ = .ok .invalidateTlb := by decide
theorem test_decode_invalidate_cache : decode ⟨0b000000000_0000_110#16, 0#64, 0#64⟩ = .ok .invalidateCache := by decide
theorem test_decode_reserved : decode ⟨0b100000000_0001_111#16, 5#64, 6#64⟩ = .ok (.reserved 0b1000000000001#13 5#64 6#64) := by
  decide

/-- R71's refused examples, and one for each other reason of R67. -/
theorem test_decode_refused :
    decode ⟨0x0083#16, 0xF008#64, 0#64⟩ = .error .tableLocMisaligned ∧ decode ⟨0x0008#16, 0#64, 0#64⟩ = .error .rsvNotZero ∧
    decode ⟨0x0080#16, 0#64, 0#64⟩ = .error .idxNotZero ∧ decode ⟨0x0006#16, 1#64, 0#64⟩ = .error .aNotZero ∧
    decode ⟨0x0004#16, 0x13000#64, 1#64⟩ = .error .bNotZero := by decide

/-- A request of the opcode table's numbering: CMD alone, its operands zero, and CMD with A. -/
theorem test_table_word :
    decodeTableWord 16 0x0503 = some (.mapPage 0#64 10#9 0#64) ∧ decodeTableWord 80 0x1230001 = some (.read 0x123#64) ∧
    decodeTableWord 16 0x0008 = none := by decide

/-! ## One step per operation -/

/-- R181's example: a miss that walks. -/
theorem test_translate_walks : gives (exec (.translate va0) chain) .ok 0x10123#64 [.tlbMiss] = true := by decide
/-- R181's example: a hit answers with its own offset. -/
theorem test_translate_hits : gives (exec (.translate 0x50000000FFF#64) cached) .ok 0x10FFF#64 [.tlbHit] = true := by decide
/-- R182's example: byte 2 of PTE 0 of F3. -/
theorem test_read_walks : gives (exec (.read 0x50000003002#64) chain) .ok 0x01#64 [.tlbMiss, .l1Miss] = true := by decide
/-- 95 §1 S4: a READ that misses everywhere and one that hits the TLB. -/
theorem test_read_hits : gives (exec (.read 0x50000000FFF#64) cached) .ok 0#64 [.tlbHit, .l1Miss] = true := by decide
/-- R183's example. -/
theorem test_read_phys_fills : gives (exec (.readPhys 0xF051#64) chain) .ok 0x10#64 [.l1Miss] = true := by decide
/-- R183's example: the first byte outside a memory of one megabyte. -/
theorem test_read_phys_fatal : gives (exec (.readPhys 0x100000#64) chain) .fatal 0#64 [.l1Miss] = true := by decide
/-- R43's example: the eight bytes of the entry. -/
theorem test_map_page_bytes :
    answers (exec (.mapPage 0xF000#64 10#9 0x11000#64) State.reset) (fun t =>
      t.mem == [(0xF050, 0x01#8), (0xF051, 0x10#8), (0xF052, 0x01#8)]) = true := by decide
/-- R184: a table outside memory. -/
theorem test_map_page_fatal :
    gives (exec (.mapPage 0x100000#64 0#9 0#64) State.reset) .fatal 0#64 [] = true := by decide
/-- R104's example. -/
theorem test_unmap_page_bytes :
    answers (exec (.unmapPage 0x13000#64 0#9) chain) (fun t => loadBytes t.mem 0x13000 8 == 0 && t.mem.length == 12) = true := by
  decide
/-- R186's example: the translation that was in the TLB misses afterwards. -/
theorem test_invalidate_tlb :
    answers (exec .invalidateTlb cached) (fun t => tlbFind (tlbSetOf t va0) (tlbTag (vpn va0)) == none) = true := by decide
/-- R187's example: the line that was in the L1 misses afterwards. -/
theorem test_invalidate_cache : answers (exec .invalidateCache lined) (fun t => l1Lookup 0x13002#64 t == none) = true := by decide
/-- R67. -/
theorem test_reserved : refuses (exec (.reserved 0#13 0#64 0#64) chain) .reservedOp = true := by decide
/-- R60: the first step after reset runs the request it is given. -/
theorem test_step : refuses (step (State.reset.withFetchWord 16 0xFFFF)) .reservedOp = true := by decide

/-! ## Replacement -/

/-- R124's examples. -/
theorem test_tlb_victim :
    tlbVictim #v[wayOf 0#64 2, wayOf 1#64 1, wayOf 2#64 0, wayOf 3#64 1] = 2 ∧
    tlbVictim #v[wayOf 0#64 2, wayOf 1#64 2, wayOf 2#64 2, wayOf 3#64 2] = 0 := by decide

/-- R154's example: ways 2 and 5 invalid. -/
theorem test_l1_victim :
    l1Victim #v[lineOf 0#52, lineOf 1#52, .empty, lineOf 3#52, lineOf 4#52, .empty, lineOf 6#52, lineOf 7#52] = 5 := by decide

/-! ## Witnesses: requests and decoding -/

theorem witness_DecodeEncodeGivesBack :
    (Instr.mapPage 0xFFFFFFFFFFFFF000#64 511#9 0xFFFFFFFFFFFFFFFF#64).wellFormed = true ∧
    (Instr.unmapPage 0#64 0#9).wellFormed = true ∧ (Instr.reserved 0x1FFF#13 1#64 2#64).wellFormed = true := by decide

theorem witness_EncodeDecodeGivesBack :
    decode ⟨0xFF83#16, 0x1000#64, 0xFFF#64⟩ = .ok (.mapPage 0x1000#64 511#9 0xFFF#64) := by decide

theorem witness_CommandWordBelongsToOneRow :
    (⟨"MAP_PAGE", 0x0003#16, 0x007F#16⟩ : TableRow) ∈ tableRows ∧
    (⟨"RESERVED", 0x0007#16, 0x0007#16⟩ : TableRow) ∈ tableRows := by decide

/-- The block with one request waiting. -/
def waiting (s : State) (r : Request) : State := { s with requests := [r] }

/-- One request for each of the six conditions of R67, and one that meets none. -/
theorem witness_StepRefusesExactlyTheListedRequests :
    refuses (step (waiting chain ⟨0x0007#16, 0#64, 0#64⟩)) .reservedOp = true ∧
    refuses (step (waiting chain ⟨0x0078#16, 0#64, 0#64⟩)) (.illFormed .rsvNotZero) = true ∧
    refuses (step (waiting chain ⟨0xFF82#16, 0#64, 0#64⟩)) (.illFormed .idxNotZero) = true ∧
    refuses (step (waiting chain ⟨0x0005#16, 1#64, 0#64⟩)) (.illFormed .aNotZero) = true ∧
    refuses (step (waiting chain ⟨0x0001#16, 0#64, 1#64⟩)) (.illFormed .bNotZero) = true ∧
    refuses (step (waiting chain ⟨0x0004#16, 0xFFF#64, 0#64⟩)) (.illFormed .tableLocMisaligned) = true ∧
    refuses (step (waiting stopped ⟨0x0000#16, 0#64, 0#64⟩)) .halted = true ∧
    gives (step (waiting chain ⟨0xFF83#16, 0xFF000#64, 1#64⟩)) .ok 0#64 [] = true := by decide

theorem witness_StepRunsTheDecodedRequest :
    (waiting chain ⟨0x0000#16, va0, 0#64⟩).requests = [⟨0x0000#16, va0, 0#64⟩] ∧
    decode ⟨0x0000#16, va0, 0#64⟩ = .ok (.translate va0) ∧ decode ⟨0x0008#16, va0, 0#64⟩ = .error .rsvNotZero ∧
    (chain.requests = [] ∧ chain.halted = false) ∧ (stopped.requests = [] ∧ stopped.halted = true) ∧
    decodeTableWord 80 (0x50000000123 * 2 ^ 16) = some (.translate va0) := by decide

theorem witness_WellFormedRequestsAlwaysComplete :
    (waiting chain ⟨0x0000#16, va0, 0#64⟩).requests = [⟨0x0000#16, va0, 0#64⟩] ∧
    (waiting chain ⟨0x0000#16, va0, 0#64⟩).halted = false ∧ decode ⟨0x0000#16, va0, 0#64⟩ = .ok (.translate va0) := by decide

/-! ## Witnesses: addresses and memory -/

theorem witness_SelectsDetermineTheAddress :
    (l1Set 0x10100#64 = l1Set 0x1013F#64 ∧ l1Tag 0x10100#64 = l1Tag 0x1013F#64) ∧
    (tlbSet (vpn va0) = tlbSet (vpn 0x50000000FFF#64) ∧ tlbTag (vpn va0) = tlbTag (vpn 0x50000000FFF#64)) := by decide

/-- The last eight bytes of memory, and eight that end one past it. -/
theorem witness_MemReadIsTheLittleEndianSum :
    0xFFFF9 + 8 > chain.memMB * 2 ^ 20 ∧ 0xFFFF8 + 8 ≤ chain.memMB * 2 ^ 20 := by decide

theorem witness_MemWriteStoresLittleEndian :
    0xFFFF9 + 8 > chain.memMB * 2 ^ 20 ∧ (0xFFFF8 + 8 ≤ chain.memMB * 2 ^ 20 ∧ Memory.wf chain.mem = true) := by decide

/-! ## Witnesses: the walk and translation -/

/-- The fixture whose slot at `a` holds the entry for `x`. -/
def entryAt (a : Nat) (x : PhysAddr) : State := { chain with mem := storeBytes chainMem a (newPresent x).toNat 8 }

/-- An address that page-faults at each level, and an entry that leads out of memory at each level. -/
theorem witness_PageWalkTakesFourLevels :
    Mapped chain va0 ∧
    (WalkPageFaults chain 0#64 ∧ WalkPageFaults chain 0x50040000000#64 ∧ WalkPageFaults chain 0x50000400000#64 ∧
      WalkPageFaults chain 0x50000001000#64) ∧
    (WalkLeavesMemory rootless va0 ∧ WalkLeavesMemory (entryAt 0xF050 0x100000#64) va0 ∧
      WalkLeavesMemory (entryAt 0x11000 0x100000#64) va0 ∧ WalkLeavesMemory (entryAt 0x12000 0xFFFFFFFFFFFFF000#64) va0) :=
  ⟨by decide, ⟨by decide, by decide, by decide, by decide⟩, by decide, by decide, by decide, by decide⟩

theorem witness_WalkReadsBits47To12Only :
    va0.extractLsb' 12 36 = (0xFFFF050000000FFF#64).extractLsb' 12 36 := by decide

theorem witness_TranslateFollowsItsRule :
    (cached.halted = false ∧ TlbHits cached va0 0) ∧ (chain.halted = false ∧ TlbMisses chain va0 ∧ Mapped chain va0) ∧
    (TlbMisses chain 0x50000001000#64 ∧ WalkPageFaults chain 0x50000001000#64) ∧
    (rootless.halted = false ∧ TlbMisses rootless va0 ∧ WalkLeavesMemory rootless va0) :=
  ⟨by decide, ⟨by decide, by decide, by decide⟩, ⟨by decide, by decide⟩, by decide, by decide, by decide⟩

theorem witness_SecondTranslationHits :
    gives (exec (.translate va0) chain) .ok 0x10123#64 [.tlbMiss] = true ∧ vpn 0x50000000FFF#64 = vpn va0 := by decide

/-- The chain's four entries, written leaf first. -/
theorem witness_FourEditsMakeAnAddressTranslate :
    Memory.wf State.reset.mem = true ∧ TlbMisses State.reset va0 ∧
    [(0xF000#64, vpn1 va0), (0x11000#64, vpn2 va0), (0x12000#64, vpn3 va0), (0x13000#64, vpn4 va0)].Nodup ∧
    [Instr.mapPage 0x13000#64 (vpn4 va0) 0x10000#64, .mapPage 0x12000#64 (vpn3 va0) 0x13000#64,
      .mapPage 0x11000#64 (vpn2 va0) 0x12000#64, .mapPage 0xF000#64 (vpn1 va0) 0x11000#64].Perm
      [.mapPage State.reset.cr3 (vpn1 va0) 0x11000#64, .mapPage 0x11000#64 (vpn2 va0) 0x12000#64,
        .mapPage 0x12000#64 (vpn3 va0) 0x13000#64, .mapPage 0x13000#64 (vpn4 va0) 0x10000#64] ∧
    answers (execAll [.mapPage 0x13000#64 (vpn4 va0) 0x10000#64, .mapPage 0x12000#64 (vpn3 va0) 0x13000#64,
      .mapPage 0x11000#64 (vpn2 va0) 0x12000#64, .mapPage 0xF000#64 (vpn1 va0) 0x11000#64] State.reset)
      (fun t => !t.halted) = true := by decide

/-! ## Witnesses: the TLB -/

theorem witness_TlbVictimIsFirstInvalidOrLowestCounter :
    (∃ w : Fin 4, (#v[wayOf 0#64 2, .empty, wayOf 2#64 0, .empty] : TlbWays)[w].valid = false) ∧
    (∀ w : Fin 4, (#v[wayOf 0#64 2, wayOf 1#64 1, wayOf 2#64 0, wayOf 3#64 1] : TlbWays)[w].valid = true) := by decide

theorem witness_TlbInsertClearsTheWholeSet : (127 : Fin 128) ≠ tlbSet (vpn va0) := by decide

theorem witness_FullTlbSetEvictsWaysZeroAndOne :
    (∀ w : Fin 4, (#v[wayOf 0#64 0, wayOf 1#64 0, wayOf 2#64 0, wayOf 3#64 1] : TlbWays)[w].valid = true ∧
      (#v[wayOf 0#64 0, wayOf 1#64 0, wayOf 2#64 0, wayOf 3#64 1] : TlbWays)[w].ctr = if w = 3 then 1 else 0) ∧
    (∀ w : Fin 4, (#v[wayOf 0#64 1, wayOf 1#64 0, wayOf 2#64 0, wayOf 3#64 0] : TlbWays)[w].valid = true ∧
      (#v[wayOf 0#64 1, wayOf 1#64 0, wayOf 2#64 0, wayOf 3#64 0] : TlbWays)[w].ctr = if w = 0 then 1 else 0) := by decide

/-- The ways of an empty TLB are invalid. -/
theorem chain_invalid (i : Fin 128) (w : Fin 4) : chain.tlb[i][w].valid = false := congrArg TlbWay.valid (tlbEmpty_get i w)

theorem witness_TlbTagsStayUnique :
    TlbTagsUnique chain ∧ gives (step (chain.withFetchWord 80 (0x50000000123 * 2 ^ 16))) .ok 0x10123#64 [.tlbMiss] = true :=
  ⟨fun i v _ h => absurd h (by rw [chain_invalid i v]; decide), by decide⟩

/-- The counters of the fixture after one insert: no hits, and way 0 of set 0 the last victim. -/
theorem cached_counters :
    CountersFollow cached (fun _ _ => 0) (recordVictim (fun _ => none) (tlbSet (vpn va0)) 0) := by
  unfold CountersFollow
  decide

theorem witness_TlbCountersFollowHistory :
    (CountersFollow cached (fun _ _ => 0) (recordVictim (fun _ => none) (tlbSet (vpn va0)) 0) ∧ TlbHits cached va0 0 ∧
      gives (exec (.translate va0) cached) .ok 0x10123#64 [.tlbHit] = true ∧
      gives (exec (.read va0) cached) .ok 0#64 [.tlbHit, .l1Miss] = true) ∧
    (TlbMisses cached 0x50000003002#64 ∧ Mapped cached 0x50000003002#64 ∧
      gives (exec (.translate 0x50000003002#64) cached) .ok 0x13002#64 [.tlbMiss] = true ∧
      gives (exec (.read 0x50000003002#64) cached) .ok 1#64 [.tlbMiss, .l1Miss] = true) ∧
    (TlbMisses cached 0#64 ∧ ¬Mapped cached 0#64 ∧ gives (exec (.translate 0#64) cached) .pageFault 0#64 [.tlbMiss] = true ∧
      gives (exec (.read 0#64) cached) .pageFault 0#64 [.tlbMiss] = true) ∧
    gives (exec .invalidateTlb cached) .ok 0#64 [] = true :=
  ⟨⟨cached_counters, by decide⟩, by decide⟩

/-! ## Witnesses: the L1 and the reads -/

/-- Eight ways of which those from `n` on are valid. -/
def filledFrom (n : Nat) : L1Ways :=
  ⟨((List.range 8).map fun k => if n ≤ k then lineOf (BitVec.ofNat 52 k) else .empty).toArray, by simp⟩

theorem witness_L1VictimIsLastInvalidOrWayZero :
    (∃ w : Fin 8, (filledFrom 3)[w].valid = false) ∧ (∀ w : Fin 8, (filledFrom 0)[w].valid = true) := by decide

/-- A fill in each of the three cases. -/
theorem witness_L1SetFillsDownwardThenWayZero :
    ((∀ w : Fin 8, (l1SetOf (withL1 (filledFrom 3)) 0x13000#64)[w].valid = true ↔ (3 : Fin 8) ≤ w) ∧
      (l1Fill 0x13000#64 (withL1 (filledFrom 3))).isOk = true) ∧
    ((∀ w : Fin 8, (l1SetOf (withL1 (filledFrom 1)) 0x13000#64)[w].valid = true ↔ (1 : Fin 8) ≤ w) ∧
      (l1Fill 0x13000#64 (withL1 (filledFrom 1))).isOk = true) ∧
    ((∀ w : Fin 8, (l1SetOf (withL1 (filledFrom 8)) 0x13000#64)[w].valid = false) ∧
      (l1Fill 0x13000#64 (withL1 (filledFrom 8))).isOk = true) ∧
    ((∀ w : Fin 8, (l1SetOf (withL1 (filledFrom 0)) 0x13000#64)[w].valid = true) ∧
      (l1Fill 0x13000#64 (withL1 (filledFrom 0))).isOk = true) := by decide

/-- The last byte of memory and the first beyond it. -/
theorem witness_ReadPhysFollowsItsRule :
    (lined.halted = false ∧ L1Hits lined 0x13002#64 7) ∧ (L1Misses lined 0xFFFFF#64 ∧ (0xFFFFF#64).toNat < lined.memMB * 2 ^ 20) ∧
    (L1Misses lined 0x100000#64 ∧ lined.memMB * 2 ^ 20 ≤ (0x100000#64).toNat) := by decide

theorem witness_SecondReadOfABlockHits :
    (gives (exec (.readPhys 0x13002#64) chain) .ok 1#64 [.l1Miss] = true ∧ l1Base 0x1303F#64 = l1Base 0x13002#64) ∧
    gives (exec (.readPhys 0x13002#64) lined) .ok 0xAB#64 [.l1Hit] = true := by decide

theorem witness_ReadIsTranslateThenReadPhys :
    answers (exec (.translate 0x50000003002#64) chain) (fun t =>
      t.response == some ⟨.ok, 0x13002#64⟩ && gives (exec (.readPhys 0x13002#64) t) .ok 1#64 [.l1Miss]) = true ∧
    gives (exec (.translate 0#64) chain) .pageFault 0#64 [.tlbMiss] = true := by decide

theorem witness_ReadAnswersTheByte :
    chain.halted = false ∧ Translates chain 0x50000003002#64 0x13002#64 ∧ ReadsByte chain 0x13002#64 1#8 :=
  ⟨rfl, .inr (by decide), .inr (by decide)⟩

/-- The other half of each alternative: a TLB hit, and an L1 hit. -/
theorem witness_ReadAnswersTheByte_hits : Translates cached va0 0x10123#64 ∧ ReadsByte lined 0x13002#64 0xAB#8 :=
  ⟨.inl ⟨0, by decide⟩, .inl ⟨7, by decide⟩⟩

theorem witness_L1TagsStayUnique :
    L1TagsUnique chain ∧ gives (step (chain.withFetchWord 80 (0x13002 * 2 ^ 16 + 2))) .ok 1#64 [.l1Miss] = true :=
  ⟨fun i v _ h => absurd h (by rw [show chain.l1[i][v].valid = false from congrArg L1Way.valid (l1Empty_get i v)]; decide),
    by decide⟩

/-! ## Witnesses: page-table edits -/

/-- The last table of memory and the first beyond it. -/
theorem witness_MapPageFollowsItsRule :
    chain.halted = false ∧ (0xF008#64).extractLsb' 0 12 ≠ 0#12 ∧
    ((0x100000#64).extractLsb' 0 12 = 0#12 ∧ chain.memMB * 2 ^ 20 < (0x100000#64).toNat + 4096) ∧
    ((0xFF000#64).extractLsb' 0 12 = 0#12 ∧ (0xFF000#64).toNat + 4096 ≤ chain.memMB * 2 ^ 20 ∧ Memory.wf chain.mem = true) := by
  decide

theorem witness_UnmapPageFollowsItsRule :
    chain.halted = false ∧ (0x13FFF#64).extractLsb' 0 12 ≠ 0#12 ∧
    ((0x100000#64).extractLsb' 0 12 = 0#12 ∧ chain.memMB * 2 ^ 20 < (0x100000#64).toNat + 4096) ∧
    ((0xFF000#64).extractLsb' 0 12 = 0#12 ∧ (0xFF000#64).toNat + 4096 ≤ chain.memMB * 2 ^ 20 ∧ Memory.wf chain.mem = true) := by
  decide

theorem witness_TableReadsSeeTheEdit :
    Memory.wf chain.mem = true ∧ answers (exec (.mapPage 0x13000#64 511#9 0x10000#64) chain) (fun t => !t.halted) = true ∧
    answers (exec (.unmapPage 0x13000#64 0#9) chain) (fun t => !t.halted) = true ∧
    frameAligned 0x13000#64 = true ∧ ((0x13000#64, 510#9) : PhysAddr × TableIndex) ≠ (0x13000#64, 511#9) := by decide

theorem witness_RepeatedEditChangesNothing :
    Memory.wf chain.mem = true ∧ answers (exec (.mapPage 0x13000#64 0#9 0x11000#64) chain) (fun t => !t.halted) = true ∧
    answers (exec (.unmapPage 0x13000#64 0#9) chain) (fun t => !t.halted) = true := by decide

theorem witness_CachedTranslationOutlivesAnEdit :
    TlbHits cached va0 0 ∧ answers (exec (.unmapPage 0xF000#64 10#9) cached) (fun t => !t.halted) = true ∧
    answers (exec (.mapPage 0x13000#64 0#9 0x19000#64) cached) (fun t => !t.halted) = true := by decide

theorem witness_CachedLineOutlivesAnEdit :
    L1Hits lined 0x13002#64 7 ∧ answers (exec (.unmapPage 0x13000#64 0#9) lined) (fun t => !t.halted) = true ∧
    answers (exec (.mapPage 0x13000#64 0#9 0x19000#64) lined) (fun t => !t.halted) = true := by decide

/-! ## Witnesses: maintenance and the reserved op code -/

theorem witness_InvalidateTlbEmptiesTheTlb : cached.halted = false := by decide

theorem witness_InvalidateCacheEmptiesTheL1 : lined.halted = false := by decide

theorem witness_InvalidationsMakeTheNextAccessMiss :
    (answers (exec .invalidateTlb cached) (fun _ => true) = true ∧ Mapped cached va0 ∧ ¬Mapped cached 0#64) ∧
    (answers (exec .invalidateCache lined) (fun _ => true) = true ∧ (0xFFFFF#64).toNat < memBytes lined ∧
      memBytes lined ≤ (0x100000#64).toNat) := by decide

theorem witness_ReservedOpIsRefused : chain.halted = false := by decide

/-! ## Witnesses: exceptions, responses and events -/

theorem witness_PageFaultAnswerChangesNoState :
    gives (exec (.translate 0x50000001000#64) chain) .pageFault 0#64 [.tlbMiss] = true ∧
    gives (exec (.read 0x50000001000#64) cached) .pageFault 0#64 [.tlbMiss] = true := by decide

/-- A Fatal at each of R223's sites; the READ's translation keeps its insert. -/
theorem witness_FatalAnswerHaltsForGood :
    gives (exec (.translate va0) rootless) .fatal 0#64 [.tlbMiss] = true ∧
    gives (exec (.read va0) rootless) .fatal 0#64 [.tlbMiss] = true ∧
    gives (exec (.read va0) (entryAt 0x13000 0x100000#64)) .fatal 0#64 [.tlbMiss, .l1Miss] = true ∧
    gives (exec (.readPhys 0x100000#64) chain) .fatal 0#64 [.l1Miss] = true ∧
    gives (exec (.mapPage 0x100000#64 0#9 0#64) chain) .fatal 0#64 [] = true ∧
    gives (exec (.unmapPage 0x100000#64 0#9) chain) .fatal 0#64 [] = true := by decide

theorem witness_HaltedIsSetByFatalOnly :
    answers (exec (.readPhys 0x100000#64) chain) (fun t => t.halted) = true ∧
    answers (exec (.readPhys 0xFFFFF#64) chain) (fun t => !t.halted) = true ∧ stopped.halted = true ∧
    (waiting stopped ⟨0#16, 0#64, 0#64⟩).requests = [⟨0#16, 0#64, 0#64⟩] := by decide

/-- A next state for each operation and each status it can answer with. -/
theorem witness_ResponsesFollowTheTable :
    gives (exec (.translate va0) chain) .ok 0x10123#64 [.tlbMiss] = true ∧
    gives (exec (.translate 0#64) chain) .pageFault 0#64 [.tlbMiss] = true ∧
    gives (exec (.read 0x50000003002#64) chain) .ok 1#64 [.tlbMiss, .l1Miss] = true ∧
    gives (exec (.readPhys 0x100000#64) chain) .fatal 0#64 [.l1Miss] = true ∧
    gives (exec (.mapPage 0xF000#64 0#9 0#64) chain) .ok 0#64 [] = true ∧
    gives (exec (.unmapPage 0xF000#64 0#9) chain) .ok 0#64 [] = true ∧
    gives (exec .invalidateTlb chain) .ok 0#64 [] = true ∧ gives (exec .invalidateCache chain) .ok 0#64 [] = true := by decide

theorem witness_EventsFollowTheRule :
    gives (exec (.translate va0) cached) .ok 0x10123#64 [.tlbHit] = true ∧
    gives (exec (.readPhys 0x13002#64) lined) .ok 0xAB#64 [.l1Hit] = true ∧
    gives (exec (.read va0) cached) .ok 0#64 [.tlbHit, .l1Miss] = true ∧
    gives (exec (.read 0#64) cached) .pageFault 0#64 [.tlbMiss] = true ∧
    gives (exec (.mapPage 0xF000#64 0#9 0#64) chain) .ok 0#64 [] = true ∧
    gives (exec (.unmapPage 0xF000#64 0#9) chain) .ok 0#64 [] = true ∧
    gives (exec .invalidateTlb chain) .ok 0#64 [] = true ∧ gives (exec .invalidateCache chain) .ok 0#64 [] = true := by decide

/-! ## Witnesses: the whole machine -/

/-- The least legal parameters, and each illegal one. -/
theorem witness_ConstructionGivesTheListedState :
    construct ⟨1, 0#64, 1⟩ = .next (State.ofParams ⟨1, 0#64, 1⟩) ∧ construct ⟨0, 0#64, 1⟩ = .refused .memMBBelowOne ∧
    construct ⟨1, 0xFFF#64, 1⟩ = .refused .cr3InitMisaligned ∧ construct ⟨1, 0#64, 0⟩ = .refused .tlbCtrMaxBelowOne :=
  ⟨rfl, rfl, rfl, rfl⟩

/-- The last table of a memory of one megabyte as the root table. -/
theorem witness_FreshBlockPageFaults :
    construct ⟨1, 0xFF000#64, 1⟩ = .next (State.ofParams ⟨1, 0xFF000#64, 1⟩) ∧ (0xFF000#64).toNat + 4096 ≤ 1 * 2 ^ 20 :=
  ⟨rfl, by decide⟩

theorem witness_OperationsWriteOnlyTheirOwnState :
    answers (exec (.mapPage 0xF000#64 0#9 0#64) chain) (fun t => t.mem != chain.mem) = true ∧
    answers (exec (.translate va0) chain) (fun t => (tlbSetOf t va0)[(0 : Fin 4)].valid) = true ∧
    answers (exec (.readPhys 0x13002#64) chain) (fun t => (l1SetOf t 0x13002#64)[(7 : Fin 8)].valid) = true := by decide

theorem witness_OperationsIgnoreTheChannels :
    gives (exec (.translate va0) chain) .ok 0x10123#64 [.tlbMiss] = true ∧
    refuses (exec (.mapPage 1#64 0#9 0#64) chain) .misalignedTableLoc = true := by decide

theorem reset_memoryInv : MemoryInv State.reset := ⟨rfl, fun _ h => nomatch h⟩

theorem witness_MemoryHoldsOnlyPtes :
    MemoryInv State.reset ∧ MemoryHoldsPtes State.reset ∧
    gives (step (State.reset.withFetchWord 144 (0x11000 * 2 ^ 80 + 0xF000 * 2 ^ 16 + 0x0503))) .ok 0#64 [] = true :=
  ⟨reset_memoryInv, ⟨fun _ => .inl rfl, fun _ _ => rfl⟩, by decide⟩

theorem witness_StepKeepsTheBlockInvariant :
    Inv State.reset ∧
    gives (step (State.reset.withFetchWord 144 (0x11000 * 2 ^ 80 + 0xF000 * 2 ^ 16 + 0x0503))) .ok 0#64 [] = true := by
  refine ⟨⟨reset_memoryInv, ⟨by decide, by decide, by decide⟩, fun i w => ?_, fun i w h => ?_⟩, by decide⟩
  · rw [show State.reset.tlb[i][w] = TlbWay.empty from tlbEmpty_get i w]
    decide
  · exact absurd h (by rw [show State.reset.l1[i][w].valid = false from congrArg L1Way.valid (l1Empty_get i w)]; decide)

theorem witness_ConstructionMeetsTheBlockInvariant :
    construct ⟨2, 0x1000#64, 3⟩ = .next (State.ofParams ⟨2, 0x1000#64, 3⟩) := rfl

end Sys2Proof.Tests
end

/-! PROOFS. The statements of 00_scope. First, for every operation at once, what its next state has in each field: the fields no
operation writes, and the ways memory, the TLB and the L1 can be written. The invariant and the completion of requests follow. -/

namespace Sys2Proof.Machine

/-! ## What an operation's next state has in each field -/

/-- TRANSLATE writes neither a parameter nor `cr3`, the request channel, memory or the L1. -/
theorem execTranslate_frame {va : VirtAddr} {s t : State} (h : exec (.translate va) s = .next t) :
    t.memMB = s.memMB ∧ t.tlbCtrMax = s.tlbCtrMax ∧ t.cr3 = s.cr3 ∧ t.requests = s.requests ∧ t.mem = s.mem ∧
      t.l1 = s.l1 := by
  obtain ⟨-, ⟨_, -, rfl⟩ | ⟨-, _, -, rfl⟩ | ⟨-, _, -, rfl⟩⟩ := execTranslate_next h <;>
    exact ⟨rfl, rfl, rfl, rfl, rfl, rfl⟩

/-- No operation writes a parameter, `cr3` or the request channel. -/
theorem exec_frame {i : Instr} {s t : State} (h : exec i s = .next t) :
    t.memMB = s.memMB ∧ t.tlbCtrMax = s.tlbCtrMax ∧ t.cr3 = s.cr3 ∧ t.requests = s.requests := by
  cases i with
  | translate va =>
    obtain ⟨hb, hc, hr, hq, -, -⟩ := execTranslate_frame h
    exact ⟨hb, hc, hr, hq⟩
  | read va =>
    obtain ⟨-, u, hu, ⟨-, rfl⟩ | ⟨_, _, -, -, rfl⟩⟩ := execRead_next h
    · obtain ⟨hb, hc, hr, hq, -, -⟩ := execTranslate_frame hu
      exact ⟨hb, hc, hr, hq⟩
    · exact ⟨rfl, rfl, rfl, rfl⟩
  | readPhys pa =>
    obtain ⟨-, ⟨_, -, rfl⟩ | ⟨-, -, rfl⟩ | ⟨-, -, rfl⟩⟩ := execReadPhys_next h <;> exact ⟨rfl, rfl, rfl, rfl⟩
  | mapPage a k x => obtain ⟨-, -, ⟨-, rfl⟩ | ⟨-, rfl⟩⟩ := execMapPage_next h <;> exact ⟨rfl, rfl, rfl, rfl⟩
  | unmapPage a k => obtain ⟨-, -, ⟨-, rfl⟩ | ⟨-, rfl⟩⟩ := execUnmapPage_next h <;> exact ⟨rfl, rfl, rfl, rfl⟩
  | invalidateTlb => obtain ⟨-, rfl⟩ := execInvalidateTlb_next h; exact ⟨rfl, rfl, rfl, rfl⟩
  | invalidateCache => obtain ⟨-, rfl⟩ := execInvalidateCache_next h; exact ⟨rfl, rfl, rfl, rfl⟩
  | reserved u a b => exact absurd h execReserved_next

/-- Memory stays, or one slot of an aligned table inside memory takes a present or an unmapped entry. -/
theorem exec_mem {i : Instr} {s t : State} (h : exec i s = .next t) :
    t.mem = s.mem ∨ ∃ (a : PhysAddr) (k : TableIndex) (e : Word), frameAligned a = true ∧ a.toNat + 4096 ≤ memBytes s ∧
      ((∃ x, e = newPresent x) ∨ e = newUnmapped) ∧ t.mem = storeBytes s.mem (slotAddr a k) e.toNat 8 := by
  cases i with
  | translate va =>
    obtain ⟨-, -, -, -, hm, -⟩ := execTranslate_frame h
    exact .inl hm
  | read va =>
    obtain ⟨-, u, hu, ⟨-, rfl⟩ | ⟨_, _, -, -, rfl⟩⟩ := execRead_next h
    · obtain ⟨-, -, -, -, hm, -⟩ := execTranslate_frame hu
      exact .inl hm
    · exact .inl rfl
  | readPhys pa =>
    obtain ⟨-, ⟨_, -, rfl⟩ | ⟨-, -, rfl⟩ | ⟨-, -, rfl⟩⟩ := execReadPhys_next h <;> exact .inl rfl
  | mapPage a k x =>
    obtain ⟨-, ha, ⟨hb, rfl⟩ | ⟨-, rfl⟩⟩ := execMapPage_next h
    · exact .inr ⟨a, k, _, ha, hb, .inl ⟨x, rfl⟩, rfl⟩
    · exact .inl rfl
  | unmapPage a k =>
    obtain ⟨-, ha, ⟨hb, rfl⟩ | ⟨-, rfl⟩⟩ := execUnmapPage_next h
    · exact .inr ⟨a, k, _, ha, hb, .inr rfl, rfl⟩
    · exact .inl rfl
  | invalidateTlb => obtain ⟨-, rfl⟩ := execInvalidateTlb_next h; exact .inl rfl
  | invalidateCache => obtain ⟨-, rfl⟩ := execInvalidateCache_next h; exact .inl rfl
  | reserved u a b => exact absurd h execReserved_next

/-- What can become of the TLB: it stays, a hit bumps a counter, a walk is inserted after a miss, or it is emptied. -/
def TlbAfter (s : State) (tlb : Tlb) : Prop :=
  tlb = s.tlb ∨ (∃ va w, TlbHits s va w ∧ tlb = (putTlbSet va (bumpWay s.tlbCtrMax (tlbSetOf s va) w) s).tlb) ∨
    (∃ va pa, TlbMisses s va ∧ tlb = (tlbInsert va pa s).tlb) ∨ tlb = Tlb.empty

theorem execTranslate_tlb {va : VirtAddr} {s t : State} (h : exec (.translate va) s = .next t) : TlbAfter s t.tlb := by
  obtain ⟨-, ⟨w, hw, rfl⟩ | ⟨hm, f, -, rfl⟩ | ⟨-, _, -, rfl⟩⟩ := execTranslate_next h
  · exact .inr (.inl ⟨va, w, hw, rfl⟩)
  · exact .inr (.inr (.inl ⟨va, withOffset f va, hm, rfl⟩))
  · exact .inl rfl

theorem exec_tlb {i : Instr} {s t : State} (h : exec i s = .next t) : TlbAfter s t.tlb := by
  cases i with
  | translate va => exact execTranslate_tlb h
  | read va =>
    obtain ⟨-, u, hu, ⟨-, rfl⟩ | ⟨_, _, -, -, rfl⟩⟩ := execRead_next h
    · exact execTranslate_tlb hu
    · exact execTranslate_tlb (t := u) hu
  | readPhys pa =>
    obtain ⟨-, ⟨_, -, rfl⟩ | ⟨-, -, rfl⟩ | ⟨-, -, rfl⟩⟩ := execReadPhys_next h <;> exact .inl rfl
  | mapPage a k x => obtain ⟨-, -, ⟨-, rfl⟩ | ⟨-, rfl⟩⟩ := execMapPage_next h <;> exact .inl rfl
  | unmapPage a k => obtain ⟨-, -, ⟨-, rfl⟩ | ⟨-, rfl⟩⟩ := execUnmapPage_next h <;> exact .inl rfl
  | invalidateTlb => obtain ⟨-, rfl⟩ := execInvalidateTlb_next h; exact .inr (.inr (.inr rfl))
  | invalidateCache => obtain ⟨-, rfl⟩ := execInvalidateCache_next h; exact .inl rfl
  | reserved u a b => exact absurd h execReserved_next

/-- What can become of the L1: it stays, a block inside memory fills a way after a miss, or it is emptied. -/
def L1After (s : State) (l1 : L1) : Prop :=
  l1 = s.l1 ∨ (∃ pa, L1Misses s pa ∧ pa.toNat < memBytes s ∧
    l1 = (putL1Set pa (fillWay (l1SetOf s pa) (l1Tag pa) (loadLine s.mem (l1Base pa).toNat)) s).l1) ∨ l1 = L1.empty

theorem execReadPhys_l1 {pa : PhysAddr} {s t : State} (h : exec (.readPhys pa) s = .next t) : L1After s t.l1 := by
  obtain ⟨-, ⟨_, -, rfl⟩ | ⟨hm, hp, rfl⟩ | ⟨-, -, rfl⟩⟩ := execReadPhys_next h
  · exact .inl rfl
  · exact .inr (.inl ⟨pa, hm, hp, rfl⟩)
  · exact .inl rfl

theorem exec_l1 {i : Instr} {s t : State} (h : exec i s = .next t) : L1After s t.l1 := by
  cases i with
  | translate va =>
    obtain ⟨-, -, -, -, -, hl⟩ := execTranslate_frame h
    exact .inl hl
  | read va =>
    obtain ⟨-, u, hu, ⟨-, rfl⟩ | ⟨_, v, -, hv, rfl⟩⟩ := execRead_next h
    · obtain ⟨-, -, -, -, -, hl⟩ := execTranslate_frame hu
      exact .inl hl
    · exact execReadPhys_l1 (t := v) hv
  | readPhys pa => exact execReadPhys_l1 h
  | mapPage a k x => obtain ⟨-, -, ⟨-, rfl⟩ | ⟨-, rfl⟩⟩ := execMapPage_next h <;> exact .inl rfl
  | unmapPage a k => obtain ⟨-, -, ⟨-, rfl⟩ | ⟨-, rfl⟩⟩ := execUnmapPage_next h <;> exact .inl rfl
  | invalidateTlb => obtain ⟨-, rfl⟩ := execInvalidateTlb_next h; exact .inl rfl
  | invalidateCache => obtain ⟨-, rfl⟩ := execInvalidateCache_next h; exact .inr (.inr rfl)
  | reserved u a b => exact absurd h execReserved_next

/-! ## Each part of the invariant is kept by every operation -/

theorem exec_memBytes {i : Instr} {s t : State} (h : exec i s = .next t) : memBytes t = memBytes s := by
  rw [memBytes, memBytes, (exec_frame h).1]

theorem exec_keeps_params {i : Instr} {s t : State} (h : exec i s = .next t) (hp : ParamsInv s) : ParamsInv t := by
  obtain ⟨hb, hc, hr, -⟩ := exec_frame h
  exact ⟨hb ▸ hp.memMB, hc ▸ hp.ctrMax, hr ▸ hp.cr3⟩

theorem exec_keeps_memory {i : Instr} {s t : State} (h : exec i s = .next t) (hm : MemoryInv s) : MemoryInv t := by
  obtain he | ⟨a, k, e, -, ha, -, he⟩ := exec_mem h
  · exact ⟨he ▸ hm.wf, by rw [he, exec_memBytes h]; exact hm.inside⟩
  · refine ⟨he ▸ storeBytes_wf hm.wf _ _ _, fun c hc => ?_⟩
    have hslot := slotAddr_inside a k
    rw [exec_memBytes h]
    rw [he] at hc
    rcases mem_storeBytes hc with hin | hold
    · omega
    · exact hm.inside c hold

/-- R24 for one way: of the tag only bits 51:7 can be non-zero, and the counter is at most the limit. -/
def TlbWay.InRange (ctrMax : Nat) (w : TlbWay) : Prop :=
  w.tag.toNat < 2 ^ 52 ∧ w.tag &&& 127#64 = 0#64 ∧ w.ctr ≤ ctrMax

theorem tlbWaysInRange_iff (s : State) :
    TlbWaysInRange s ↔ ∀ (i : Fin 128) (w : Fin 4), (s.tlb[i][w]).InRange s.tlbCtrMax := Iff.rfl

theorem TlbWay.inRange_empty (m : Nat) : TlbWay.empty.InRange m := ⟨by decide, by decide, Nat.zero_le m⟩

theorem satInc_le (m c : Nat) : satInc m c ≤ m := Nat.min_le_right _ _

theorem bumpWay_inRange {m : Nat} {ways : TlbWays} (h : ∀ v : Fin 4, ways[v].InRange m) (w v : Fin 4) :
    (bumpWay m ways w)[v].InRange m := by
  obtain ⟨hlt, hlow, -⟩ := h v
  rw [bumpWay_get]
  split
  · exact ⟨hlt, hlow, satInc_le _ _⟩
  · exact h v

theorem insertWay_inRange {m : Nat} {ways : TlbWays} (h : ∀ v : Fin 4, ways[v].InRange m) (u : Vpn) (pa : PhysAddr)
    (v : Fin 4) : (insertWay m ways (tlbTag u) pa)[v].InRange m := by
  obtain ⟨hlt, hlow, -⟩ := h v
  rw [insertWay_get]
  split
  · exact ⟨tlbTag_lt u, tlbTag_and_127 u, satInc_le _ _⟩
  · exact ⟨hlt, hlow, Nat.zero_le m⟩

/-- Replacing one set by ways in range keeps every way in range. -/
theorem putTlbSet_inRange {s : State} {va : VirtAddr} {ways : TlbWays} (hs : TlbWaysInRange s)
    (h : ∀ w : Fin 4, ways[w].InRange s.tlbCtrMax) (i : Fin 128) (w : Fin 4) :
    ((putTlbSet va ways s).tlb[i][w]).InRange s.tlbCtrMax := by
  rw [tlb_putTlbSet_get]
  split
  · exact h w
  · exact hs i w

theorem exec_keeps_tlb {i : Instr} {s t : State} (h : exec i s = .next t) (hs : TlbWaysInRange s) : TlbWaysInRange t := by
  obtain ⟨-, hc, -, -⟩ := exec_frame h
  rw [tlbWaysInRange_iff, hc]
  obtain he | ⟨va, w, -, he⟩ | ⟨va, pa, -, he⟩ | he := exec_tlb h <;> rw [he]
  · exact hs
  · exact putTlbSet_inRange hs (bumpWay_inRange (hs (tlbSet (vpn va))) w)
  · exact putTlbSet_inRange hs (insertWay_inRange (hs (tlbSet (vpn va))) (vpn va) pa)
  · exact fun i w => (tlbEmpty_get i w).symm ▸ TlbWay.inRange_empty _

/-- R153, R155: a fill from a block inside memory leaves every valid line inside memory. -/
theorem fill_linesInside {s : State} {pa : PhysAddr} (data : Line) (hs : L1LinesInside s) (hp : pa.toNat < memBytes s) :
    L1LinesInside (putL1Set pa (fillWay (l1SetOf s pa) (l1Tag pa) data) s) := by
  have hblock : (l1Tag pa).toNat * 4096 + (l1Set pa).val * 64 + 64 ≤ memBytes s := by
    rw [← l1Base_eq]
    exact (block_inside_iff s pa).mpr hp
  intro i w hv
  rw [l1_putL1Set_get] at hv ⊢
  split_ifs at hv ⊢ with hi
  · subst hi
    rw [fillWay_get] at hv ⊢
    split_ifs at hv ⊢
    · exact hblock
    · exact hs (l1Set pa) w hv
  · exact hs i w hv

theorem linesInside_congr {s t : State} (hb : memBytes t = memBytes s) (hl : t.l1 = s.l1) (h : L1LinesInside s) :
    L1LinesInside t := by
  rw [L1LinesInside, hb, hl]
  exact h

theorem exec_keeps_l1 {i : Instr} {s t : State} (h : exec i s = .next t) (hs : L1LinesInside s) : L1LinesInside t := by
  have hb := exec_memBytes h
  obtain he | ⟨pa, -, hp, he⟩ | he := exec_l1 h
  · exact linesInside_congr hb he hs
  · exact linesInside_congr (s := putL1Set pa _ s) hb he (fill_linesInside _ hs hp)
  · intro i w hv
    rw [he, l1Empty_get] at hv
    exact nomatch hv

theorem exec_keeps_inv {i : Instr} {s t : State} (h : exec i s = .next t) (hs : Inv s) : Inv t :=
  ⟨exec_keeps_memory h hs.memory, exec_keeps_params h hs.params, exec_keeps_tlb h hs.tlb, exec_keeps_l1 h hs.l1⟩

/-- Taking requests from the channel does not touch what the invariant speaks of. -/
theorem inv_withRequests {s : State} (h : Inv s) (q : List Request) : Inv { s with requests := q } :=
  ⟨⟨h.memory.wf, h.memory.inside⟩, ⟨h.params.memMB, h.params.ctrMax, h.params.cr3⟩, h.tlb, h.l1⟩

/-- Settles O51: a step waits or runs one operation, and every operation keeps each part of the invariant. -/
theorem stepKeepsTheBlockInvariant : Obligations.StepKeepsTheBlockInvariant := by
  intro s t hs h
  obtain ⟨-, -, rfl⟩ | ⟨r, rest, i, -, -, hx⟩ := step_next h
  · exact hs
  · exact exec_keeps_inv hx (inv_withRequests hs rest)

/-! ## Requests complete -/

/-- R64: an operation that edits a table decodes from an aligned A only. -/
theorem ifWellFormed_aligned {u : OperandUse} {r : Request} {i j : Instr} (hu : u.a = .frameAligned)
    (h : ifWellFormed u r j = .ok i) : frameAligned r.a = true ∧ j = i := by
  obtain ⟨hm, hj⟩ := ifWellFormed_ok h
  obtain ⟨-, -, -, ha, -⟩ := (malformed_none_iff u r).mp hm
  exact ⟨ha hu, hj⟩

/-- R67: a request that decodes has an aligned `table_loc` where its operation has one. -/
theorem decode_wellFormed {r : Request} {i : Instr} (h : decode r = .ok i) : i.wellFormed = true := by
  unfold decode at h
  split at h
  case h_4 => obtain ⟨ha, rfl⟩ := ifWellFormed_aligned rfl h; exact ha  -- MAP_PAGE
  case h_5 => obtain ⟨ha, rfl⟩ := ifWellFormed_aligned rfl h; exact ha  -- UNMAP_PAGE
  case h_8 => injection h with h; subst h; rfl  -- RESERVED
  all_goals obtain ⟨-, rfl⟩ := ifWellFormed_ok h; rfl

theorem perform_completes (body : State → State × Except Exception Word) (s : State) : ∃ t, perform body s = .next t := by
  rcases hb : body (beginRequest s) with ⟨u, e | v⟩
  · exact ⟨_, perform_error hb⟩
  · exact ⟨_, perform_ok hb⟩

theorem whenRunning_completes {s : State} {k : Host.Outcome State Fault Refusal} (hs : s.halted = false)
    (h : ∃ t, k = .next t) : ∃ t, whenRunning s k = .next t := by
  rwa [whenRunning_running hs]

theorem whenAligned_completes {a : PhysAddr} {k : Host.Outcome State Fault Refusal} (ha : frameAligned a = true)
    (h : ∃ t, k = .next t) : ∃ t, whenAligned a k = .next t := by
  rwa [whenAligned, if_pos ha]

/-- R11: on a block that is not halted every well-formed operation but the reserved one runs to completion. -/
theorem exec_completes {i : Instr} {s : State} (hs : s.halted = false) (hw : i.wellFormed = true)
    (hi : ∀ u a b, i ≠ .reserved u a b) : ∃ t, exec i s = .next t := by
  cases i with
  | translate va => exact whenRunning_completes hs (perform_completes _ s)
  | read va => exact whenRunning_completes hs (perform_completes _ s)
  | readPhys pa => exact whenRunning_completes hs (perform_completes _ s)
  | mapPage a k x => exact whenRunning_completes hs (whenAligned_completes hw (perform_completes _ s))
  | unmapPage a k => exact whenRunning_completes hs (whenAligned_completes hw (perform_completes _ s))
  | invalidateTlb => exact whenRunning_completes hs (perform_completes _ s)
  | invalidateCache => exact whenRunning_completes hs (perform_completes _ s)
  | reserved u a b => exact absurd rfl (hi u a b)

theorem perform_ne_fault (body : State → State × Except Exception Word) (s : State) (f : Fault) :
    perform body s ≠ .fault f := by
  obtain ⟨t, ht⟩ := perform_completes body s
  rw [ht]
  exact nofun

theorem whenRunning_ne_fault {k : Host.Outcome State Fault Refusal} {f : Fault} (s : State) (h : k ≠ .fault f) :
    whenRunning s k ≠ .fault f := by
  unfold whenRunning
  split
  · exact nofun
  · exact h

theorem whenAligned_ne_fault {k : Host.Outcome State Fault Refusal} {f : Fault} (a : PhysAddr) (h : k ≠ .fault f) :
    whenAligned a k ≠ .fault f := by
  unfold whenAligned
  split
  · exact h
  · exact nofun

/-- R225: an operation answers or is refused; it never faults. -/
theorem exec_ne_fault (i : Instr) (s : State) (f : Fault) : exec i s ≠ .fault f := by
  cases i with
  | translate va => exact whenRunning_ne_fault s (perform_ne_fault _ s f)
  | read va => exact whenRunning_ne_fault s (perform_ne_fault _ s f)
  | readPhys pa => exact whenRunning_ne_fault s (perform_ne_fault _ s f)
  | mapPage a k x => exact whenRunning_ne_fault s (whenAligned_ne_fault a (perform_ne_fault _ s f))
  | unmapPage a k => exact whenRunning_ne_fault s (whenAligned_ne_fault a (perform_ne_fault _ s f))
  | invalidateTlb => exact whenRunning_ne_fault s (perform_ne_fault _ s f)
  | invalidateCache => exact whenRunning_ne_fault s (perform_ne_fault _ s f)
  | reserved u a b => exact whenRunning_ne_fault s nofun

theorem serve_ne_fault (r : Request) (s : State) (f : Fault) : serve r s ≠ .fault f := by
  rcases hd : decode r with why | i
  · rw [serve_illFormed hd]
    exact nofun
  · rw [serve_decoded hd]
    exact exec_ne_fault i s f

/-- R224: only a halted block with no request waiting faults (log entries 3, 5 and 6). -/
theorem step_fault_iff (s : State) (f : Fault) : step s = .fault f ↔ s.requests = [] ∧ s.halted = true := by
  rcases hr : s.requests with _ | ⟨r, rest⟩
  · rw [step_waiting hr, idle]
    cases f
    cases s.halted <;> simp
  · rw [step_request hr]
    exact ⟨fun h => absurd h (serve_ne_fault r _ f), fun h => nomatch h.1⟩

/-- Settles O53: a request that decodes is well-formed, so its operation completes, and no operation writes the channel. -/
theorem wellFormedRequestsAlwaysComplete : Obligations.WellFormedRequestsAlwaysComplete := by
  refine ⟨step_fault_iff, fun s r rest i hr hs hd hi => ?_⟩
  obtain ⟨t, ht⟩ := exec_completes (s := { s with requests := rest }) hs (decode_wellFormed hd) hi
  obtain ⟨-, -, -, hq⟩ := exec_frame ht
  exact ⟨t, by rw [step_request hr, serve_decoded hd, ht], hq⟩

end Sys2Proof.Machine

/-! PROOFS. The statements of 10_state. First a step's invariants packaged once; then which operation may write which part of the
state; then the TLB's tags and counters, the L1's tags, the words of memory, and `halted`. -/

namespace Sys2Proof.Machine

/-! ## Invariants of a step -/

/-- R5, R60: what every operation keeps and the request channel does not matter to, every step keeps. -/
theorem step_keeps {P : State → Prop} (hx : ∀ (i : Instr) (s t : State), exec i s = .next t → P s → P t)
    (hq : ∀ (s : State) (q : List Request), P s → P { s with requests := q }) {s t : State} (hs : P s)
    (h : step s = .next t) : P t := by
  obtain ⟨-, -, rfl⟩ | ⟨r, rest, i, -, -, he⟩ := step_next h
  · exact hs
  · exact hx i _ t he (hq s rest hs)

/-! ## Which operation writes which part of the state -/

/-- R7: TLB_CTR_MAX is fixed at construction. -/
theorem exec_tlbCtrMax {i : Instr} {s t : State} (h : exec i s = .next t) : t.tlbCtrMax = s.tlbCtrMax := by
  obtain ⟨-, hc, -, -⟩ := exec_frame h
  exact hc

/-- R182: READ's translation is the one TRANSLATE makes in the same state. -/
theorem execRead_tlb {va : VirtAddr} {s t : State} (h : exec (.read va) s = .next t) :
    ∃ u, exec (.translate va) s = .next u ∧ t.tlb = u.tlb := by
  obtain ⟨-, u, hu, ⟨-, rfl⟩ | ⟨_, _, -, -, rfl⟩⟩ := execRead_next h
  · exact ⟨t, hu, rfl⟩
  · exact ⟨u, hu, rfl⟩

theorem execRead_mem {va : VirtAddr} {s t : State} (h : exec (.read va) s = .next t) : t.mem = s.mem := by
  obtain ⟨-, u, hu, ⟨-, rfl⟩ | ⟨_, _, -, -, rfl⟩⟩ := execRead_next h
  · obtain ⟨-, -, -, -, hm, -⟩ := execTranslate_frame hu
    exact hm
  · rfl

/-- R22, R183: READ_PHYS writes neither memory nor the TLB. -/
theorem execReadPhys_frame {pa : PhysAddr} {s t : State} (h : exec (.readPhys pa) s = .next t) :
    t.mem = s.mem ∧ t.tlb = s.tlb := by
  obtain ⟨-, ⟨_, -, rfl⟩ | ⟨-, -, rfl⟩ | ⟨-, -, rfl⟩⟩ := execReadPhys_next h <;> exact ⟨rfl, rfl⟩

/-- R51, R52: a table edit touches neither the TLB nor the L1. -/
theorem edit_frame {s t : State} {a : PhysAddr} {k : TableIndex} {e : Word}
    (h : whenRunning s (whenAligned a (perform (editOp a k e) s)) = .next t) : t.tlb = s.tlb ∧ t.l1 = s.l1 := by
  obtain ⟨-, -, ⟨-, rfl⟩ | ⟨-, rfl⟩⟩ := edit_next h <;> exact ⟨rfl, rfl⟩

/-- R23: only the table edits write memory. -/
theorem exec_mem_unchanged {i : Instr} {s t : State} (h : exec i s = .next t) :
    t.mem = s.mem ∨ (∃ l k x, i = .mapPage l k x) ∨ ∃ l k, i = .unmapPage l k := by
  cases i with
  | translate va =>
    obtain ⟨-, -, -, -, hm, -⟩ := execTranslate_frame h
    exact .inl hm
  | read va => exact .inl (execRead_mem h)
  | readPhys pa => exact .inl (execReadPhys_frame h).1
  | mapPage a k x => exact .inr (.inl ⟨a, k, x, rfl⟩)
  | unmapPage a k => exact .inr (.inr ⟨a, k, rfl⟩)
  | invalidateTlb => obtain ⟨-, rfl⟩ := execInvalidateTlb_next h; exact .inl rfl
  | invalidateCache => obtain ⟨-, rfl⟩ := execInvalidateCache_next h; exact .inl rfl
  | reserved u a b => exact absurd h execReserved_next

/-- R52, R181, R182, R186: only the translations and INVALIDATE_TLB write the TLB. -/
theorem exec_tlb_unchanged {i : Instr} {s t : State} (h : exec i s = .next t) :
    t.tlb = s.tlb ∨ (∃ va, i = .translate va ∨ i = .read va) ∨ i = .invalidateTlb := by
  cases i with
  | translate va => exact .inr (.inl ⟨va, .inl rfl⟩)
  | read va => exact .inr (.inl ⟨va, .inr rfl⟩)
  | readPhys pa => exact .inl (execReadPhys_frame h).2
  | mapPage a k x => exact .inl (edit_frame h).1
  | unmapPage a k => exact .inl (edit_frame h).1
  | invalidateTlb => exact .inr (.inr rfl)
  | invalidateCache => obtain ⟨-, rfl⟩ := execInvalidateCache_next h; exact .inl rfl
  | reserved u a b => exact absurd h execReserved_next

/-- R51, R158, R187: only the reads and INVALIDATE_CACHE write the L1. -/
theorem exec_l1_unchanged {i : Instr} {s t : State} (h : exec i s = .next t) :
    t.l1 = s.l1 ∨ (∃ x, i = .read x ∨ i = .readPhys x) ∨ i = .invalidateCache := by
  cases i with
  | translate va =>
    obtain ⟨-, -, -, -, -, hl⟩ := execTranslate_frame h
    exact .inl hl
  | read va => exact .inr (.inl ⟨va, .inl rfl⟩)
  | readPhys pa => exact .inr (.inl ⟨pa, .inr rfl⟩)
  | mapPage a k x => exact .inl (edit_frame h).2
  | unmapPage a k => exact .inl (edit_frame h).2
  | invalidateTlb => obtain ⟨-, rfl⟩ := execInvalidateTlb_next h; exact .inl rfl
  | invalidateCache => exact .inr (.inr rfl)
  | reserved u a b => exact absurd h execReserved_next

/-- Settles O48: the frame of every operation, part by part. -/
theorem operationsWriteOnlyTheirOwnState : Obligations.OperationsWriteOnlyTheirOwnState := by
  intro i s t h
  obtain ⟨hb, hc, hr, hq⟩ := exec_frame h
  exact ⟨hr, hb, hc, hq, (exec_mem_unchanged h).resolve_left, (exec_tlb_unchanged h).resolve_left,
    (exec_l1_unchanged h).resolve_left⟩

/-! ## R30: the tags of the TLB -/

/-- R30 for one set. -/
def TlbSetUnique (ways : TlbWays) : Prop :=
  ∀ v w : Fin 4, ways[v].valid = true → ways[w].valid = true → ways[v].tag = ways[w].tag → v = w

theorem tlbTagsUnique_iff (s : State) : TlbTagsUnique s ↔ ∀ i : Fin 128, TlbSetUnique s.tlb[i] := Iff.rfl

@[simp] theorem bumpWay_valid (m : Nat) (ways : TlbWays) (w v : Fin 4) : (bumpWay m ways w)[v].valid = ways[v].valid := by
  rw [bumpWay_get]
  split <;> rfl

@[simp] theorem bumpWay_tag (m : Nat) (ways : TlbWays) (w v : Fin 4) : (bumpWay m ways w)[v].tag = ways[v].tag := by
  rw [bumpWay_get]
  split <;> rfl

/-- R123: a hit writes a counter, so the tags stay unique. -/
theorem bumpWay_unique {ways : TlbWays} (h : TlbSetUnique ways) (m : Nat) (w : Fin 4) :
    TlbSetUnique (bumpWay m ways w) := by
  intro u v
  rw [bumpWay_valid, bumpWay_valid, bumpWay_tag, bumpWay_tag]
  exact h u v

theorem tlbEmpty_unique (i : Fin 128) : TlbSetUnique Tlb.empty[i] := by
  intro v w hv
  rw [tlbEmpty_get] at hv
  exact nomatch hv

theorem putTlbSet_unique {s : State} {va : VirtAddr} {ways : TlbWays} (hs : TlbTagsUnique s) (h : TlbSetUnique ways)
    (i : Fin 128) : TlbSetUnique (putTlbSet va ways s).tlb[i] := by
  rw [tlb_putTlbSet_get]
  split
  · exact h
  · exact hs i

theorem exec_keeps_tlbTagsUnique (i : Instr) (s t : State) (h : exec i s = .next t) (hs : TlbTagsUnique s) :
    TlbTagsUnique t := by
  rw [tlbTagsUnique_iff]
  obtain he | ⟨va, w, -, he⟩ | ⟨va, pa, hm, he⟩ | he := exec_tlb h <;> rw [he]
  · exact hs
  · exact putTlbSet_unique hs (bumpWay_unique (hs _) _ w)
  · exact putTlbSet_unique hs (insertWay_unique (hs _) hm)
  · exact tlbEmpty_unique

/-- Settles O21: an insert follows a miss of the tag it inserts, so it adds no second way with that tag. -/
theorem tlbTagsStayUnique : Obligations.TlbTagsStayUnique :=
  ⟨fun _ => tlbEmpty_unique, fun _ _ hs h => step_keeps exec_keeps_tlbTagsUnique (fun _ _ h => h) hs h⟩

/-! ## R31: the tags of the L1 -/

/-- R31 for one set. -/
def L1SetUnique (ways : L1Ways) : Prop :=
  ∀ v w : Fin 8, ways[v].valid = true → ways[w].valid = true → ways[v].tag = ways[w].tag → v = w

theorem l1TagsUnique_iff (s : State) : L1TagsUnique s ↔ ∀ i : Fin 64, L1SetUnique s.l1[i] := Iff.rfl

theorem l1Empty_unique (i : Fin 64) : L1SetUnique L1.empty[i] := by
  intro v w hv
  rw [l1Empty_get] at hv
  exact nomatch hv

theorem putL1Set_unique {s : State} {pa : PhysAddr} {ways : L1Ways} (hs : L1TagsUnique s) (h : L1SetUnique ways)
    (i : Fin 64) : L1SetUnique (putL1Set pa ways s).l1[i] := by
  rw [l1_putL1Set_get]
  split
  · exact h
  · exact hs i

theorem exec_keeps_l1TagsUnique (i : Instr) (s t : State) (h : exec i s = .next t) (hs : L1TagsUnique s) :
    L1TagsUnique t := by
  rw [l1TagsUnique_iff]
  obtain he | ⟨pa, hm, -, he⟩ | he := exec_l1 h <;> rw [he]
  · exact hs
  · exact putL1Set_unique hs (fillWay_unique (hs _) hm)
  · exact l1Empty_unique

/-- Settles O29: a fill follows a miss of the tag it fills, so it adds no second way with that tag. -/
theorem l1TagsStayUnique : Obligations.L1TagsStayUnique :=
  ⟨fun _ => l1Empty_unique, fun _ _ hs h => step_keeps exec_keeps_l1TagsUnique (fun _ _ h => h) hs h⟩

/-! ## R32: the words of memory -/

/-- R32 for the value of one word: unmapped, or present. -/
def IsPteValue (v : Nat) : Prop := v = 0 ∨ ∃ x : Word, v = (newPresent x).toNat

theorem memoryHoldsPtes_iff (s : State) : MemoryHoldsPtes s ↔
    (∀ k : Nat, IsPteValue (loadBytes s.mem (8 * k) 8)) ∧ ∀ a : Nat, memBytes s ≤ a → readByte s.mem a = 0#8 := Iff.rfl

/-- R45, R68: the slots of an aligned table are 8-byte words at multiples of 8. -/
theorem slotAddr_multiple {a : PhysAddr} (k : TableIndex) (ha : frameAligned a = true) : ∃ j, slotAddr a k = 8 * j := by
  rw [frameAligned_iff] at ha
  exact ⟨a.toNat / 8 + k.toNat, by rw [slotAddr]; omega⟩

/-- A store to one aligned word changes that word alone, to the value stored. -/
theorem loadBytes_storeBytes_word {m : Memory} (hm : Memory.wf m = true) (j k : Nat) (e : Word) :
    loadBytes (storeBytes m (8 * j) e.toNat 8) (8 * k) 8 = if k = j then e.toNat else loadBytes m (8 * k) 8 := by
  split
  · next h => rw [h, loadBytes_storeBytes_same hm, Nat.mod_eq_of_lt e.isLt]
  · exact loadBytes_storeBytes_apart m _ (by omega)

/-- R103, R104: the entries the table edits write are PTEs. -/
theorem isPteValue_edit {e : Word} (h : (∃ x, e = newPresent x) ∨ e = newUnmapped) : IsPteValue e.toNat := by
  obtain ⟨x, rfl⟩ | rfl := h
  · exact .inr ⟨x, rfl⟩
  · exact .inl rfl

theorem exec_keeps_ptes {i : Instr} {s t : State} (h : exec i s = .next t) (hm : MemoryInv s) (hs : MemoryHoldsPtes s) :
    MemoryHoldsPtes t := by
  rw [memoryHoldsPtes_iff, exec_memBytes h]
  obtain ⟨hw, hz⟩ := (memoryHoldsPtes_iff s).mp hs
  obtain he | ⟨a, k, e, ha, hin, hpte, he⟩ := exec_mem h <;> rw [he]
  · exact ⟨hw, hz⟩
  · have hslot := slotAddr_inside a k
    refine ⟨fun n => ?_, fun b hb => ?_⟩
    · obtain ⟨j, hj⟩ := slotAddr_multiple k ha
      rw [hj, loadBytes_storeBytes_word hm.wf]
      split
      · exact isPteValue_edit hpte
      · exact hw n
    · rw [readByte_storeBytes_outside _ _ (by omega)]
      exact hz b hb

/-- Settles O50: memory starts as zeros, and the only writes are entries in slots of aligned tables inside memory; that memory is
canonical is kept along with it. -/
theorem memoryHoldsOnlyPtes : Obligations.MemoryHoldsOnlyPtes := by
  refine ⟨fun _ => ⟨fun _ => .inl rfl, fun _ _ => rfl⟩, fun s t hm hs h => ?_⟩
  refine (step_keeps (P := fun s => MemoryInv s ∧ MemoryHoldsPtes s) ?_ ?_ ⟨hm, hs⟩ h).2
  · exact fun i s t h hs => ⟨exec_keeps_memory h hs.1, exec_keeps_ptes h hs.1 hs.2⟩
  · exact fun s q hs => ⟨⟨hs.1.wf, hs.1.inside⟩, hs.2⟩

/-! ## R33: the counters of the TLB -/

/-- R180: one level of the walk goes on when its table is inside memory and its entry present. -/
theorem walkFrom_cons_ok_iff (s : State) (va : VirtAddr) (t : PhysAddr) (k : Level) (rest : List Level) (f : PhysAddr) :
    walkFrom s va t (k :: rest) = .ok f ↔ TableInside s t ∧ isPresent (tableEntry s t (vpnLevel va k)) = true ∧
      walkFrom s va (physAddr (tableEntry s t (vpnLevel va k))) rest = .ok f := by
  by_cases hb : TableInside s t
  · have hr : tableRead s t (vpnLevel va k) = .ok (tableEntry s t (vpnLevel va k)) := tableRead_inside _ hb
    cases hp : isPresent (tableEntry s t (vpnLevel va k)) <;> simp [walkFrom, hr, hp, hb]
  · simp [walkFrom, tableRead_outside _ hb, hb]

@[simp] theorem walkFrom_nil (s : State) (va : VirtAddr) (t : PhysAddr) : walkFrom s va t [] = .ok t := rfl

/-- R180: the walk ends with a frame exactly when all four levels are present. -/
theorem pageWalk_ok_iff (s : State) (va : VirtAddr) (f : PhysAddr) :
    pageWalk s va = .ok f ↔ Mapped s va ∧ physAddr (entry4 s va) = f := by
  simp only [pageWalk, levels, walkFrom_cons_ok_iff, walkFrom_nil, Except.ok.injEq, and_assoc]
  rfl

theorem pageWalk_error_not_mapped {s : State} {va : VirtAddr} {e : Exception} (h : pageWalk s va = .error e) :
    ¬Mapped s va := by
  intro hm
  rw [(pageWalk_ok_iff s va _).mpr ⟨hm, rfl⟩] at h
  exact nomatch h

/-- R181, R182: what a translation, alone or in a READ, does to the TLB. -/
theorem translation_tlb {va : VirtAddr} {s t : State}
    (h : exec (.translate va) s = .next t ∨ exec (.read va) s = .next t) :
    t.tlbCtrMax = s.tlbCtrMax ∧
      ((∃ w, TlbHits s va w ∧ t.tlb = (putTlbSet va (bumpWay s.tlbCtrMax (tlbSetOf s va) w) s).tlb) ∨
        (TlbMisses s va ∧ Mapped s va ∧ ∃ pa, t.tlb = (tlbInsert va pa s).tlb) ∨
        (TlbMisses s va ∧ ¬Mapped s va ∧ t.tlb = s.tlb)) := by
  obtain ⟨u, hu, ht⟩ : ∃ u, exec (.translate va) s = .next u ∧ t.tlb = u.tlb :=
    h.elim (fun h => ⟨t, h, rfl⟩) execRead_tlb
  refine ⟨h.elim exec_tlbCtrMax exec_tlbCtrMax, ?_⟩
  rw [ht]
  obtain ⟨-, ⟨w, hw, rfl⟩ | ⟨hm, f, hf, rfl⟩ | ⟨hm, e, he, rfl⟩⟩ := execTranslate_next hu
  · exact .inl ⟨w, hw, rfl⟩
  · exact .inr (.inl ⟨hm, ((pageWalk_ok_iff s va f).mp hf).1, _, rfl⟩)
  · exact .inr (.inr ⟨hm, pageWalk_error_not_mapped he, rfl⟩)

section
variable {s t : State} {hits : Fin 128 → Fin 4 → Nat} {last : Fin 128 → Option (Fin 4)}

/-- The counters that follow a record are those of the TLB, under its limit, and nothing else. -/
theorem countersFollow_congr (h : CountersFollow s hits last) (hc : t.tlbCtrMax = s.tlbCtrMax) (ht : t.tlb = s.tlb) :
    CountersFollow t hits last := by
  rw [CountersFollow, hc, ht]
  exact h

/-- An empty TLB follows any record: no way is valid. -/
theorem countersFollow_empty (h : s.tlb = Tlb.empty) : CountersFollow s hits last := by
  intro i w hv
  rw [h, tlbEmpty_get] at hv
  exact nomatch hv

/-- R123: a hit counts one. -/
theorem countersFollow_hit (h : CountersFollow s hits last) (va : VirtAddr) (w : Fin 4) :
    CountersFollow (putTlbSet va (bumpWay s.tlbCtrMax (tlbSetOf s va) w) s) (countHit hits (tlbSet (vpn va)) w) last := by
  intro i v hv
  rw [tlb_putTlbSet_get] at hv ⊢
  by_cases hi : i = tlbSet (vpn va)
  · rw [if_pos hi, bumpWay_valid] at hv
    rw [if_pos hi, bumpWay_get]
    subst hi
    have hctr : (tlbSetOf s va)[v].ctr = _ := h _ v hv
    by_cases hvw : v = w
    · simp only [hvw, countHit, if_true, and_self, satInc, putTlbSet_tlbCtrMax] at hctr ⊢
      omega
    · simpa only [hvw, countHit, if_false, and_false, putTlbSet_tlbCtrMax] using hctr
  · rw [if_neg hi] at hv ⊢
    simpa only [hi, countHit, if_false, false_and, putTlbSet_tlbCtrMax] using h i v hv

/-- R125: an insert clears the counters of its set and gives its victim a counter of one, under the limit. -/
theorem countersFollow_insert (h : CountersFollow s hits last) (va : VirtAddr) (pa : PhysAddr) :
    CountersFollow (tlbInsert va pa s) (forgetHits hits (tlbSet (vpn va)))
      (recordVictim last (tlbSet (vpn va)) (tlbVictim (tlbSetOf s va))) := by
  intro i v hv
  rw [tlbInsert, tlb_putTlbSet_get] at hv ⊢
  by_cases hi : i = tlbSet (vpn va)
  · rw [if_pos hi, insertWay_get]
    by_cases hvict : v = tlbVictim (tlbSetOf s va)
    · simp [hi, hvict, forgetHits, recordVictim, satInc]
    · simp [hi, hvict, Ne.symm hvict, forgetHits, recordVictim]
  · rw [if_neg hi] at hv ⊢
    simpa only [hi, forgetHits, recordVictim, if_false, putTlbSet_tlbCtrMax] using h i v hv

end

/-- Settles O22: a translation's hit, insert or failed walk is told by the TLB and the page tables; of the other operations only
INVALIDATE_TLB writes the TLB, and leaves no valid way. -/
theorem tlbCountersFollowHistory : Obligations.TlbCountersFollowHistory := by
  refine ⟨fun _ _ _ => countersFollow_empty rfl, fun s t hits last hs => ⟨?_, ?_, ?_, ?_⟩⟩
  · intro va w hw h
    obtain ⟨hc, ⟨v, hv, ht⟩ | ⟨hm, -⟩ | ⟨hm, -⟩⟩ := translation_tlb h
    · obtain rfl := tlb_hits_unique hv hw
      exact countersFollow_congr (countersFollow_hit hs va v) hc ht
    · exact absurd hm (tlb_hits_not_misses hw)
    · exact absurd hm (tlb_hits_not_misses hw)
  · intro va hm hmap h
    obtain ⟨hc, ⟨w, hw, -⟩ | ⟨-, -, pa, ht⟩ | ⟨-, hn, -⟩⟩ := translation_tlb h
    · exact absurd hm (tlb_hits_not_misses hw)
    · exact countersFollow_congr (countersFollow_insert hs va pa) hc ht
    · exact absurd hmap hn
  · intro va hm hn h
    obtain ⟨hc, ⟨w, hw, -⟩ | ⟨-, hmap, -⟩ | ⟨-, -, ht⟩⟩ := translation_tlb h
    · exact absurd hm (tlb_hits_not_misses hw)
    · exact absurd hmap hn
    · exact countersFollow_congr hs hc ht
  · intro i hi hr h
    obtain ht | ⟨va, rfl | rfl⟩ | rfl := exec_tlb_unchanged h
    · exact countersFollow_congr hs (exec_tlbCtrMax h) ht
    · exact absurd rfl (hi va)
    · exact absurd rfl (hr va)
    · obtain ⟨-, rfl⟩ := execInvalidateTlb_next h
      exact countersFollow_empty rfl

/-! ## R28: `halted` -/

/-- R28, R224: the block is halted exactly when it answered FATAL. -/
def HaltedIffFatal (t : State) : Prop := t.halted = true ↔ ∃ d, t.response = some ⟨.fatal, d⟩

theorem haltedIffFatal_of_fatal {t : State} {d : Word} (hh : t.halted = true) (hr : t.response = some ⟨.fatal, d⟩) :
    HaltedIffFatal t :=
  iff_of_true hh ⟨d, hr⟩

theorem haltedIffFatal_of_other {t : State} {st : Status} {d : Word} (hh : t.halted = false)
    (hr : t.response = some ⟨st, d⟩) (hst : st ≠ .fatal) : HaltedIffFatal t := by
  simp [HaltedIffFatal, hh, hr, hst]

theorem execTranslate_haltedIffFatal {va : VirtAddr} {s t : State} (h : exec (.translate va) s = .next t) :
    HaltedIffFatal t := by
  obtain ⟨hs, ⟨w, -, rfl⟩ | ⟨-, f, -, rfl⟩ | ⟨-, e, -, rfl⟩⟩ := execTranslate_next h
  · exact haltedIffFatal_of_other hs rfl nofun
  · exact haltedIffFatal_of_other hs rfl nofun
  · cases e with
    | pageFault => exact haltedIffFatal_of_other rfl rfl nofun
    | outOfBounds => exact haltedIffFatal_of_fatal rfl rfl

theorem execReadPhys_haltedIffFatal {pa : PhysAddr} {s t : State} (h : exec (.readPhys pa) s = .next t) :
    HaltedIffFatal t := by
  obtain ⟨hs, ⟨w, -, rfl⟩ | ⟨-, -, rfl⟩ | ⟨-, -, rfl⟩⟩ := execReadPhys_next h
  · exact haltedIffFatal_of_other hs rfl nofun
  · exact haltedIffFatal_of_other hs rfl nofun
  · exact haltedIffFatal_of_fatal rfl rfl

theorem edit_haltedIffFatal {s t : State} {a : PhysAddr} {k : TableIndex} {e : Word}
    (h : whenRunning s (whenAligned a (perform (editOp a k e) s)) = .next t) : HaltedIffFatal t := by
  obtain ⟨hs, -, ⟨-, rfl⟩ | ⟨-, rfl⟩⟩ := edit_next h
  · exact haltedIffFatal_of_other hs rfl nofun
  · exact haltedIffFatal_of_fatal rfl rfl

/-- READ answers and halts as its translation does where that fails, and else as its `read_phys` does. -/
theorem exec_haltedIffFatal {i : Instr} {s t : State} (h : exec i s = .next t) : HaltedIffFatal t := by
  cases i with
  | translate va => exact execTranslate_haltedIffFatal h
  | read va =>
    obtain ⟨-, u, hu, ⟨-, rfl⟩ | ⟨_, v, -, hv, rfl⟩⟩ := execRead_next h
    · exact execTranslate_haltedIffFatal hu
    · exact execReadPhys_haltedIffFatal (t := v) hv
  | readPhys pa => exact execReadPhys_haltedIffFatal h
  | mapPage a k x => exact edit_haltedIffFatal h
  | unmapPage a k => exact edit_haltedIffFatal h
  | invalidateTlb =>
    obtain ⟨hs, rfl⟩ := execInvalidateTlb_next h
    exact haltedIffFatal_of_other hs rfl nofun
  | invalidateCache =>
    obtain ⟨hs, rfl⟩ := execInvalidateCache_next h
    exact haltedIffFatal_of_other hs rfl nofun
  | reserved u a b => exact absurd h execReserved_next

/-- R28: every operation looks at `halted` first. -/
theorem exec_halted (i : Instr) {s : State} (h : s.halted = true) : exec i s = .refused .halted := by
  cases i <;> exact whenRunning_halted h _

theorem serve_halted (r : Request) {s : State} (h : s.halted = true) : ∃ why, serve r s = .refused why := by
  rcases hd : decode r with why | i
  · exact ⟨_, serve_illFormed hd s⟩
  · exact ⟨_, (serve_decoded hd s).trans (exec_halted i h)⟩

theorem step_halted_refused {s : State} {r : Request} {rest : List Request} (h : s.halted = true)
    (hr : s.requests = r :: rest) : ∃ why, step s = .refused why := by
  rw [step_request hr]
  exact serve_halted r h

/-- R224: a halted block has no next state, with or without a request waiting. -/
theorem step_halted_ne_next {s t : State} (h : s.halted = true) : step s ≠ .next t := by
  intro hn
  obtain ⟨-, hs, -⟩ | ⟨r, rest, i, hr, -, -⟩ := step_next hn
  · rw [h] at hs
    exact nomatch hs
  · obtain ⟨why, hw⟩ := step_halted_refused h hr
    exact nomatch hw.symm.trans hn

/-- Settles O43: an operation halts the block exactly by answering FATAL, and a halted block refuses before anything else. -/
theorem haltedIsSetByFatalOnly : Obligations.HaltedIsSetByFatalOnly :=
  ⟨fun _ => rfl, fun _ _ _ => exec_haltedIffFatal, fun i _ => exec_halted i, fun _ _ _ => step_halted_refused,
    fun _ _ => step_halted_ne_next⟩

end Sys2Proof.Machine

/-! PROOFS. The statements of 20_memory. First the bounds-checked accesses; then what a table edit that did not halt the block
leaves, for the table reads, for a second edit, and for what the TLB and the L1 hold; then the first access after an
invalidation. -/

namespace Sys2Proof.Machine

/-! ## Bounds-checked accesses -/

/-- Settles O11: inside memory a read loads its bytes, and a load is their little-endian sum. -/
theorem memReadIsTheLittleEndianSum : Obligations.MemReadIsTheLittleEndianSum := by
  intro s addr n
  rw [← memBytes_eq]
  exact ⟨fun h => memRead_outside (not_le.mpr h), fun h => by rw [memRead_inside h, loadBytes_eq_sum]⟩

/-- Settles O12: inside memory a write is a store of its bytes, which keeps the canonical form and every byte outside it. -/
theorem memWriteStoresLittleEndian : Obligations.MemWriteStoresLittleEndian := by
  intro s addr n v
  rw [← memBytes_eq]
  exact ⟨fun h => memWrite_outside v (not_le.mpr h), fun h hw => ⟨_, memWrite_inside v h, storeBytes_wf hw addr v n,
    fun _ hk => readByte_storeBytes_inside hw v hk, fun _ ha => readByte_storeBytes_outside s.mem v ha⟩⟩

/-! ## A table edit that did not halt the block -/

theorem whenAligned_aligned {a : PhysAddr} (ha : frameAligned a = true) (k : Host.Outcome State Fault Refusal) :
    whenAligned a k = k := if_pos ha

/-- R184, R185: an edit of an aligned table inside memory writes its slot and answers OK. -/
theorem edit_inside {s : State} {a : PhysAddr} (k : TableIndex) (e : Word) (hs : s.halted = false)
    (ha : frameAligned a = true) (hin : TableInside s a) :
    whenRunning s (whenAligned a (perform (editOp a k e) s)) = .next { s with
      mem := storeBytes s.mem (slotAddr a k) e.toNat 8, response := some ⟨.ok, 0#64⟩, events := [] } := by
  rw [whenRunning_running hs, whenAligned_aligned ha, perform_ok (editOp_inside (s := beginRequest s) k e hin)]
  rfl

/-- R224: an edit after which the block still runs wrote its slot. -/
theorem edit_running {s t : State} {a : PhysAddr} {k : TableIndex} {e : Word}
    (h : whenRunning s (whenAligned a (perform (editOp a k e) s)) = .next t) (ht : t.halted = false) :
    frameAligned a = true ∧ TableInside s a ∧ t = { s with
      mem := storeBytes s.mem (slotAddr a k) e.toNat 8, response := some ⟨.ok, 0#64⟩, events := [] } := by
  obtain ⟨-, ha, ⟨hin, he⟩ | ⟨-, rfl⟩⟩ := edit_next h
  · exact ⟨ha, hin, he⟩
  · exact nomatch ht

/-- R50: the edited entry reads as what was written. -/
theorem edit_tableRead_same {s t : State} {a : PhysAddr} {k : TableIndex} {e : Word} (hw : Memory.wf s.mem = true)
    (ht : t.halted = false) (h : whenRunning s (whenAligned a (perform (editOp a k e) s)) = .next t) :
    tableRead t a k = .ok e := by
  obtain ⟨-, hin, rfl⟩ := edit_running h ht
  refine Eq.trans (tableRead_inside k hin) ?_
  rw [loadBytes_storeBytes_same hw, Nat.mod_eq_of_lt e.isLt, BitVec.ofNat_toNat, BitVec.setWidth_eq]

/-- R50, R247: every other entry of an aligned table reads as before, since its slot does not overlap the edited one; a table
outside memory is outside it still. -/
theorem edit_tableRead_other {s t : State} {a u : PhysAddr} {k j : TableIndex} {e : Word} (ht : t.halted = false)
    (h : whenRunning s (whenAligned a (perform (editOp a k e) s)) = .next t) (hu : frameAligned u = true)
    (hne : (u, j) ≠ (a, k)) : tableRead t u j = tableRead s u j := by
  obtain ⟨ha, -, rfl⟩ := edit_running h ht
  by_cases hin : TableInside s u
  · refine Eq.trans (tableRead_inside j hin) ?_
    rw [tableRead_inside j hin, loadBytes_storeBytes_apart s.mem _ (slotAddr_apart ha hu hne)]
  · exact Eq.trans (tableRead_outside j hin) (tableRead_outside j hin).symm

/-- Settles O32: both edits store one entry, whose slot is apart from every other slot of an aligned table. -/
theorem tableReadsSeeTheEdit : Obligations.TableReadsSeeTheEdit := fun _ _ _ _ hw ht =>
  ⟨fun _ h => ⟨edit_tableRead_same hw ht h, fun _ _ => edit_tableRead_other ht h⟩,
    fun h => ⟨edit_tableRead_same hw ht h, fun _ _ => edit_tableRead_other ht h⟩⟩

/-- R41: storing the same bytes at the same place once more changes nothing. -/
theorem storeBytes_storeBytes_same {m : Memory} (hm : Memory.wf m = true) (a v n : Nat) :
    storeBytes (storeBytes m a v n) a v n = storeBytes m a v n := by
  have hm' := storeBytes_wf hm a v n
  refine memory_ext (storeBytes_wf hm' a v n) hm' fun x => ?_
  by_cases hx : x < a ∨ a + n ≤ x
  · exact readByte_storeBytes_outside _ v hx
  · obtain ⟨k, rfl⟩ : ∃ k, x = a + k := ⟨x - a, by omega⟩
    have hk : k < n := by omega
    rw [readByte_storeBytes_inside hm' v hk, readByte_storeBytes_inside hm v hk]

/-- R47 for any entry: the state an edit leaves is the one the same edit leaves again. -/
theorem edit_repeated {s t : State} {a : PhysAddr} {k : TableIndex} {e : Word} (hw : Memory.wf s.mem = true)
    (ht : t.halted = false) (h : whenRunning s (whenAligned a (perform (editOp a k e) s)) = .next t) :
    whenRunning t (whenAligned a (perform (editOp a k e) t)) = .next t := by
  obtain ⟨ha, hin, rfl⟩ := edit_running h ht
  rw [edit_inside k e ht ha hin, storeBytes_storeBytes_same hw]

/-- Settles O33: MAP_PAGE and UNMAP_PAGE store an entry that does not depend on what the slot held. -/
theorem repeatedEditChangesNothing : Obligations.RepeatedEditChangesNothing := fun _ _ _ _ hw ht =>
  ⟨fun _ => edit_repeated hw ht, edit_repeated hw ht⟩

/-! ## What the TLB and the L1 hold outlives an edit -/

/-- R51, R52 for the two instructions that edit a table. -/
theorem execEdit_frame {s t : State} {a x : PhysAddr} {k : TableIndex}
    (h : exec (.mapPage a k x) s = .next t ∨ exec (.unmapPage a k) s = .next t) : t.tlb = s.tlb ∧ t.l1 = s.l1 :=
  h.elim edit_frame edit_frame

/-- R181: TRANSLATE of an address that hits. -/
theorem execTranslate_hit {s : State} {va : VirtAddr} {w : Fin 4} (hs : s.halted = false) (h : TlbHits s va w) :
    exec (.translate va) s = .next { s with
      tlb := (putTlbSet va (bumpWay s.tlbCtrMax (tlbSetOf s va) w) s).tlb
      response := some ⟨.ok, withOffset (tlbSetOf s va)[w].pa va⟩, events := [.tlbHit] } :=
  (whenRunning_running hs _).trans (perform_ok (translateOp_hit (s := beginRequest s) h))

/-- R183: READ_PHYS of a byte that hits. -/
theorem execReadPhys_hit {s : State} {pa : PhysAddr} {w : Fin 8} (hs : s.halted = false) (h : L1Hits s pa w) :
    exec (.readPhys pa) s = .next { s with
      response := some ⟨.ok, (l1SetOf s pa)[w].line[l1Byte pa].setWidth 64⟩, events := [.l1Hit] } :=
  (whenRunning_running hs _).trans (perform_ok (readPhysOp_hit (s := beginRequest s) h))

/-- Settles O34: the edit leaves the TLB, and a hit looks at nothing else. -/
theorem cachedTranslationOutlivesAnEdit : Obligations.CachedTranslationOutlivesAnEdit := by
  intro s t tableLoc index target va w h ht hw
  obtain ⟨htlb, -⟩ := execEdit_frame h
  refine ⟨_, execTranslate_hit ht ((tlbHits_congr htlb rfl w).mpr hw), rfl, ?_⟩
  simp only [tlbSetOf, htlb]

/-- Settles O35: the edit leaves the L1, and a hit looks at nothing else. -/
theorem cachedLineOutlivesAnEdit : Obligations.CachedLineOutlivesAnEdit := by
  intro s t tableLoc index target pa w h ht hw
  obtain ⟨-, hl1⟩ := execEdit_frame h
  refine ⟨_, execReadPhys_hit ht ((l1Hits_congr hl1 rfl rfl w).mpr hw), rfl, ?_⟩
  simp only [l1SetOf, hl1]

/-! ## The first access after an invalidation -/

/-- R126: no address hits in an empty TLB. -/
theorem tlbMisses_of_empty {s : State} (h : s.tlb = Tlb.empty) (va : VirtAddr) : TlbMisses s va := by
  intro v hv
  rw [tlbSetOf, h, tlbEmpty_get] at hv
  exact nomatch hv.1

/-- R156: no address hits in an empty L1. -/
theorem l1Misses_of_empty {s : State} (h : s.l1 = L1.empty) (pa : PhysAddr) : L1Misses s pa := by
  intro v hv
  rw [l1SetOf, h, l1Empty_get] at hv
  exact nomatch hv.1

/-- R181: TRANSLATE of an address that misses answers with the walk of it, or the walk's exception. -/
theorem execTranslate_miss {s : State} {va : VirtAddr} (hs : s.halted = false) (hm : TlbMisses s va) :
    ∃ u, exec (.translate va) s = .next u ∧ u.events = [.tlbMiss] ∧
      ((∃ f, pageWalk s va = .ok f ∧ u.response = some ⟨.ok, withOffset f va⟩) ∨
        ∃ e, pageWalk s va = .error e ∧ u.response = some ⟨exceptionStatus e, 0#64⟩) := by
  obtain ⟨u, hu⟩ := exec_completes (i := .translate va) hs rfl nofun
  refine ⟨u, hu, ?_⟩
  obtain ⟨-, ⟨w, hw, -⟩ | ⟨-, f, hf, rfl⟩ | ⟨-, e, he, rfl⟩⟩ := execTranslate_next hu
  · exact absurd hm (tlb_hits_not_misses hw)
  · exact ⟨rfl, .inl ⟨f, hf, rfl⟩⟩
  · exact ⟨rfl, .inr ⟨e, he, rfl⟩⟩

/-- R183: READ_PHYS of a byte that misses answers with memory's byte, or FATAL outside memory. -/
theorem execReadPhys_miss {s : State} {pa : PhysAddr} (hs : s.halted = false) (hm : L1Misses s pa) :
    ∃ u, exec (.readPhys pa) s = .next u ∧ u.events = [.l1Miss] ∧
      (pa.toNat < memBytes s → u.response = some ⟨.ok, (readByte s.mem pa.toNat).setWidth 64⟩) ∧
      (memBytes s ≤ pa.toNat → u.response = some ⟨.fatal, 0#64⟩) := by
  obtain ⟨u, hu⟩ := exec_completes (i := .readPhys pa) hs rfl nofun
  refine ⟨u, hu, ?_⟩
  obtain ⟨-, ⟨w, hw, -⟩ | ⟨-, hin, rfl⟩ | ⟨-, hout, rfl⟩⟩ := execReadPhys_next hu
  · exact absurd hm (l1_hits_not_misses hw)
  · exact ⟨rfl, fun _ => rfl, fun hout => absurd hin (not_lt.mpr hout)⟩
  · exact ⟨rfl, fun hin => absurd hin (not_lt.mpr hout), fun _ => rfl⟩

/-- R56: TRANSLATE after INVALIDATE_TLB misses and answers as the walk from the state before it does. -/
theorem execTranslate_after_invalidateTlb {s t : State} (h : exec .invalidateTlb s = .next t) (va : VirtAddr) :
    ∃ u, exec (.translate va) t = .next u ∧ u.events = [.tlbMiss] ∧
      ((∃ f, pageWalk s va = .ok f ∧ u.response = some ⟨.ok, withOffset f va⟩) ∨
        ∃ e, pageWalk s va = .error e ∧ u.response = some ⟨exceptionStatus e, 0#64⟩) := by
  obtain ⟨hs, rfl⟩ := execInvalidateTlb_next h
  exact execTranslate_miss hs (tlbMisses_of_empty rfl va)

/-- Settles O39: an emptied TLB or L1 misses, and the miss looks at memory, which the invalidation left. -/
theorem invalidationsMakeTheNextAccessMiss : Obligations.InvalidationsMakeTheNextAccessMiss := by
  refine ⟨fun s t h => ?_, fun s t h va hn => ?_, fun s t h => ?_⟩
  · obtain ⟨-, ht⟩ := execInvalidateTlb_next h
    refine ⟨by rw [ht], by rw [ht], fun va hmap => ?_⟩
    have hwalk := (pageWalk_ok_iff s va _).mpr ⟨hmap, rfl⟩
    obtain ⟨u, hu, hev, ⟨f, hf, hr⟩ | ⟨e, he, -⟩⟩ := execTranslate_after_invalidateTlb h va
    · obtain rfl : physAddr (entry4 s va) = f := Except.ok.inj (hwalk.symm.trans hf)
      exact ⟨u, hu, hev, hr⟩
    · exact absurd hmap (pageWalk_error_not_mapped he)
  · obtain ⟨u, hu, hev, ⟨f, hf, -⟩ | ⟨e, he, hr⟩⟩ := execTranslate_after_invalidateTlb h va
    · exact absurd ((pageWalk_ok_iff s va f).mp hf).1 hn
    · exact ⟨u, e, hu, hev, he, hr⟩
  · obtain ⟨hs, rfl⟩ := execInvalidateCache_next h
    exact ⟨rfl, rfl, fun pa => execReadPhys_miss hs
      (l1Misses_of_empty rfl pa)⟩

end Sys2Proof.Machine

/-! PROOFS. The statements of 30_encoding. First the decoder, op code by op code, its two inversions and the opcode table; then
the requests a step refuses; then the answers and the pulses of every operation; then the written-out words and lines. -/

namespace Sys2Proof

/-! ## The decoder, op code by op code (R63) -/

section
variable {r : Request}

theorem decode_op0 (h : opField r.cmd = 0#3) : decode r = ifWellFormed useAddress r (.translate r.a) := by
  simp [decode, h]

theorem decode_op1 (h : opField r.cmd = 1#3) : decode r = ifWellFormed useAddress r (.read r.a) := by
  simp [decode, h]

theorem decode_op2 (h : opField r.cmd = 2#3) : decode r = ifWellFormed useAddress r (.readPhys r.a) := by
  simp [decode, h]

theorem decode_op3 (h : opField r.cmd = 3#3) : decode r = ifWellFormed useMap r (.mapPage r.a (idxField r.cmd) r.b) := by
  simp [decode, h]

theorem decode_op4 (h : opField r.cmd = 4#3) : decode r = ifWellFormed useUnmap r (.unmapPage r.a (idxField r.cmd)) := by
  simp [decode, h]

theorem decode_op5 (h : opField r.cmd = 5#3) : decode r = ifWellFormed useNothing r .invalidateTlb := by
  simp [decode, h]

theorem decode_op6 (h : opField r.cmd = 6#3) : decode r = ifWellFormed useNothing r .invalidateCache := by
  simp [decode, h]

theorem decode_op7 (h : opField r.cmd = 7#3) : decode r = .ok (.reserved (upperField r.cmd) r.a r.b) := by
  simp [decode, h]

end

theorem opField_cases (cmd : BitVec 16) :
    opField cmd = 0#3 ∨ opField cmd = 1#3 ∨ opField cmd = 2#3 ∨ opField cmd = 3#3 ∨ opField cmd = 4#3 ∨
      opField cmd = 5#3 ∨ opField cmd = 6#3 ∨ opField cmd = 7#3 := by
  generalize opField cmd = op
  revert op
  decide

theorem ifWellFormed_ok_iff {u : OperandUse} {r : Request} {i j : Instr} :
    ifWellFormed u r j = .ok i ↔ malformed u r = none ∧ j = i := by
  refine ⟨ifWellFormed_ok, fun ⟨hm, hj⟩ => ?_⟩
  rw [ifWellFormed, hm, hj]

section
variable (r : Request)

/-! The rows of R64 as conditions on a request. -/

theorem malformed_useAddress :
    malformed useAddress r = none ↔ rsvField r.cmd = 0#4 ∧ idxField r.cmd = 0#9 ∧ r.b = 0#64 := by
  simp [malformed_none_iff, useAddress]

theorem malformed_useMap :
    malformed useMap r = none ↔ rsvField r.cmd = 0#4 ∧ Machine.frameAligned r.a = true := by
  simp [malformed_none_iff, useMap]

theorem malformed_useUnmap :
    malformed useUnmap r = none ↔ rsvField r.cmd = 0#4 ∧ Machine.frameAligned r.a = true ∧ r.b = 0#64 := by
  simp [malformed_none_iff, useUnmap]

theorem malformed_useNothing :
    malformed useNothing r = none ↔ rsvField r.cmd = 0#4 ∧ idxField r.cmd = 0#9 ∧ r.a = 0#64 ∧ r.b = 0#64 := by
  simp [malformed_none_iff, useNothing]

end

/-! ## Decoding and encoding are inverse -/

/-- R61, R67: a command word put together from an index and an op code passes the check when its index and operands do. -/
theorem ifWellFormed_commandWord {u : OperandUse} {idx : TableIndex} {op : BitVec 3} {a b : Word} (i : Instr)
    (hidx : u.idx = .mustBeZero → idx = 0#9) (ha : u.a = .mustBeZero → a = 0#64)
    (hal : u.a = .frameAligned → Machine.frameAligned a = true) (hb : u.b = .mustBeZero → b = 0#64) :
    ifWellFormed u ⟨commandWord idx op, a, b⟩ i = .ok i := by
  refine ifWellFormed_ok_iff.mpr ⟨(malformed_none_iff _ _).mpr ⟨?_, ?_, ha, hal, hb⟩, rfl⟩
  · exact rsvField_commandWord idx op
  · rw [idxField_commandWord]
    exact hidx

/-- Settles O1: the op code of the word selects the row, the operands pass the row's check, and the fields are the operands. -/
theorem decodeEncodeGivesBack : Obligations.DecodeEncodeGivesBack := by
  intro i hi
  cases i with
  | translate va =>
    rw [encode, decode_op0 (opField_commandWord _ _)]
    exact ifWellFormed_commandWord _ (fun _ => rfl) nofun nofun (fun _ => rfl)
  | read va =>
    rw [encode, decode_op1 (opField_commandWord _ _)]
    exact ifWellFormed_commandWord _ (fun _ => rfl) nofun nofun (fun _ => rfl)
  | readPhys pa =>
    rw [encode, decode_op2 (opField_commandWord _ _)]
    exact ifWellFormed_commandWord _ (fun _ => rfl) nofun nofun (fun _ => rfl)
  | mapPage a k x =>
    rw [encode, decode_op3 (opField_commandWord _ _), idxField_commandWord]
    exact ifWellFormed_commandWord _ nofun nofun (fun _ => hi) nofun
  | unmapPage a k =>
    rw [encode, decode_op4 (opField_commandWord _ _), idxField_commandWord]
    exact ifWellFormed_commandWord _ nofun nofun (fun _ => hi) (fun _ => rfl)
  | invalidateTlb =>
    rw [encode, decode_op5 (opField_commandWord _ _)]
    exact ifWellFormed_commandWord _ (fun _ => rfl) (fun _ => rfl) nofun (fun _ => rfl)
  | invalidateCache =>
    rw [encode, decode_op6 (opField_commandWord _ _)]
    exact ifWellFormed_commandWord _ (fun _ => rfl) (fun _ => rfl) nofun (fun _ => rfl)
  | reserved u a b =>
    rw [encode, decode_op7 (opField_reservedWord u), upperField_reservedWord]

/-- R61: a request whose reserved field is 0 is put together from its fields. -/
theorem request_of_fields {r : Request} {idx : TableIndex} {op : BitVec 3} {a b : Word} (hr : rsvField r.cmd = 0#4)
    (hop : opField r.cmd = op) (hidx : idxField r.cmd = idx) (ha : r.a = a) (hb : r.b = b) :
    (⟨commandWord idx op, a, b⟩ : Request) = r := by
  subst hop hidx ha hb
  rw [commandWord_fields hr]

theorem encode_of_useAddress {r : Request} {op : BitVec 3} {i j : Instr} (hop : opField r.cmd = op)
    (hj : encode j = ⟨commandWord 0#9 op, r.a, 0#64⟩) (h : ifWellFormed useAddress r j = .ok i) : encode i = r := by
  rw [ifWellFormed_ok_iff, malformed_useAddress] at h
  obtain ⟨⟨hr, hidx, hb⟩, rfl⟩ := h
  exact hj.trans (request_of_fields hr hop hidx rfl hb)

theorem encode_of_useNothing {r : Request} {op : BitVec 3} {i j : Instr} (hop : opField r.cmd = op)
    (hj : encode j = ⟨commandWord 0#9 op, 0#64, 0#64⟩) (h : ifWellFormed useNothing r j = .ok i) : encode i = r := by
  rw [ifWellFormed_ok_iff, malformed_useNothing] at h
  obtain ⟨⟨hr, hidx, ha, hb⟩, rfl⟩ := h
  exact hj.trans (request_of_fields hr hop hidx ha hb)

theorem encode_of_decode {r : Request} {i : Instr} (h : decode r = .ok i) : encode i = r := by
  rcases opField_cases r.cmd with hop | hop | hop | hop | hop | hop | hop | hop
  · exact encode_of_useAddress hop rfl ((decode_op0 hop).symm.trans h)
  · exact encode_of_useAddress hop rfl ((decode_op1 hop).symm.trans h)
  · exact encode_of_useAddress hop rfl ((decode_op2 hop).symm.trans h)
  · rw [decode_op3 hop, ifWellFormed_ok_iff, malformed_useMap] at h
    obtain ⟨⟨hr, -⟩, rfl⟩ := h
    exact request_of_fields hr hop rfl rfl rfl
  · rw [decode_op4 hop, ifWellFormed_ok_iff, malformed_useUnmap] at h
    obtain ⟨⟨hr, -, hb⟩, rfl⟩ := h
    exact request_of_fields hr hop rfl rfl hb
  · exact encode_of_useNothing hop rfl ((decode_op5 hop).symm.trans h)
  · exact encode_of_useNothing hop rfl ((decode_op6 hop).symm.trans h)
  · rw [decode_op7 hop] at h
    injection h with h
    subst h
    rw [encode, reservedWord_fields hop]

/-- Settles O2: a request that decodes passed the check of its row, so every field its instruction does not keep is 0. -/
theorem encodeDecodeGivesBack : Obligations.EncodeDecodeGivesBack := fun _ _ h =>
  ⟨Machine.decode_wellFormed h, encode_of_decode h⟩

/-! ## The opcode table (R63) -/

theorem opField_encode (i : Instr) : (opField (encode i).cmd).toNat = (rowOf i).val := by
  cases i with
  | reserved u a b => rw [encode, opField_reservedWord]; rfl
  | _ => rw [encode, opField_commandWord]; rfl

/-- R63: every row fixes the op code, and stands in the table at the place its op code names. -/
theorem tableRows_opField :
    ∀ row ∈ tableRows, opField row.mask = 7#3 ∧ tableRows[(opField row.pattern).toNat]? = some row := by
  decide

theorem opField_and (x y : BitVec 16) : opField (x &&& y) = opField x &&& opField y := BitVec.extractLsb'_and

/-- A command word that belongs to a row that fixes the op code has the row's op code. -/
theorem opField_of_owns {row : TableRow} {cmd : BitVec 16} (hm : opField row.mask = 7#3) (h : row.owns cmd = true) :
    opField cmd = opField row.pattern := by
  rw [← beq_iff_eq.mp h, opField_and, hm]
  exact BitVec.and_allOnes.symm

theorem ownsWord (i : Instr) : Laws.OwnsWord.Statement i := by
  cases i with
  | translate va => exact Laws.OwnsWord.translate va
  | read va => exact Laws.OwnsWord.read va
  | readPhys pa => exact Laws.OwnsWord.readPhys pa
  | mapPage a k x => exact Laws.OwnsWord.mapPage a k x
  | unmapPage a k => exact Laws.OwnsWord.unmapPage a k
  | invalidateTlb => exact Laws.OwnsWord.invalidateTlb
  | invalidateCache => exact Laws.OwnsWord.invalidateCache
  | reserved u a b => exact Laws.OwnsWord.reserved u a b

/-- Settles O3: the word belongs to its own row, and a row it belongs to has its op code, which names one row only. -/
theorem commandWordBelongsToOneRow : Obligations.CommandWordBelongsToOneRow := by
  intro i row hrow
  obtain ⟨hmask, hplace⟩ := tableRows_opField row hrow
  obtain ⟨own, hown, howns⟩ := ownsWord i
  constructor
  · intro h
    rw [← opField_encode, opField_of_owns hmask h, hplace]
  · intro h
    obtain rfl : own = row := Option.some.inj (hown.symm.trans h)
    exact howns

end Sys2Proof

namespace Sys2Proof.Machine

/-! ## The requests a step refuses (R67) -/

/-- The request decodes to one of the seven operations. -/
def AsksForOperation (r : Request) : Prop := ∃ i, decode r = .ok i ∧ ∀ u a b, i ≠ .reserved u a b

theorem asksForOperation_of_row {u : OperandUse} {r : Request} {i : Instr} (h : decode r = ifWellFormed u r i)
    (hi : ∀ u a b, i ≠ .reserved u a b) : AsksForOperation r ↔ malformed u r = none := by
  constructor
  · rintro ⟨j, hj, -⟩
    exact (ifWellFormed_ok (h.symm.trans hj)).1
  · intro hm
    exact ⟨i, h.trans (ifWellFormed_ok_iff.mpr ⟨hm, rfl⟩), hi⟩

/-- R67, the conditions on the request alone. -/
theorem not_asksForOperation_iff (r : Request) :
    ¬AsksForOperation r ↔
      opField r.cmd = 7#3 ∨ rsvField r.cmd ≠ 0#4 ∨
      (idxField r.cmd ≠ 0#9 ∧ opField r.cmd ≠ 3#3 ∧ opField r.cmd ≠ 4#3) ∨
      (r.a ≠ 0#64 ∧ (opField r.cmd = 5#3 ∨ opField r.cmd = 6#3)) ∨
      (r.b ≠ 0#64 ∧ opField r.cmd ≠ 3#3) ∨
      (r.a.extractLsb' 0 12 ≠ 0#12 ∧ (opField r.cmd = 3#3 ∨ opField r.cmd = 4#3)) := by
  rcases opField_cases r.cmd with hop | hop | hop | hop | hop | hop | hop | hop
  · rw [asksForOperation_of_row (decode_op0 hop) nofun, malformed_useAddress, hop]
    simp [imp_iff_not_or]
  · rw [asksForOperation_of_row (decode_op1 hop) nofun, malformed_useAddress, hop]
    simp [imp_iff_not_or]
  · rw [asksForOperation_of_row (decode_op2 hop) nofun, malformed_useAddress, hop]
    simp [imp_iff_not_or]
  · rw [asksForOperation_of_row (decode_op3 hop) nofun, malformed_useMap, hop, frameAligned_iff_extract]
    simp [imp_iff_not_or]
  · rw [asksForOperation_of_row (decode_op4 hop) nofun, malformed_useUnmap, hop, frameAligned_iff_extract]
    simp [imp_iff_not_or, or_comm]
  · rw [asksForOperation_of_row (decode_op5 hop) nofun, malformed_useNothing, hop]
    simp [imp_iff_not_or]
  · rw [asksForOperation_of_row (decode_op6 hop) nofun, malformed_useNothing, hop]
    simp [imp_iff_not_or]
  · refine iff_of_true ?_ (.inl hop)
    rintro ⟨i, hi, hne⟩
    rw [decode_op7 hop] at hi
    injection hi with hi
    exact hne _ _ _ hi.symm

theorem execReserved_refused {s : State} (hs : s.halted = false) (u : BitVec 13) (a b : Word) :
    exec (.reserved u a b) s = .refused .reservedOp :=
  whenRunning_running hs _

/-- Settles O40: a block that is not halted runs the arm, and the arm is the refusal. -/
theorem reservedOpIsRefused : Obligations.ReservedOpIsRefused := fun _ u a b hs => execReserved_refused hs u a b

theorem serve_refused_iff {s : State} (hs : s.halted = false) (r : Request) :
    (∃ why, serve r s = .refused why) ↔ ¬AsksForOperation r := by
  constructor
  · rintro ⟨why, hw⟩ ⟨i, hd, hi⟩
    obtain ⟨t, ht⟩ := exec_completes hs (decode_wellFormed hd) hi
    rw [serve_decoded hd, ht] at hw
    exact nomatch hw
  · intro hn
    rcases hd : decode r with why | i
    · exact ⟨_, serve_illFormed hd s⟩
    · obtain ⟨u, a, b, rfl⟩ : ∃ u a b, i = .reserved u a b := by
        by_contra hi
        exact hn ⟨i, hd, fun u a b h => hi ⟨u, a, b, h⟩⟩
      exact ⟨_, (serve_decoded hd s).trans (execReserved_refused hs u a b)⟩

theorem step_refused_iff {s : State} {r : Request} {rest : List Request} (hr : s.requests = r :: rest) :
    (∃ why, step s = .refused why) ↔ ¬AsksForOperation r ∨ s.halted = true := by
  rcases hs : s.halted with _ | _
  · rw [step_request hr, serve_refused_iff (s := { s with requests := rest }) hs]
    simp
  · exact iff_of_true (step_halted_refused hs hr) (.inr rfl)

/-- Settles O4: a step refuses a halted block's request, and a request that asks for none of the seven operations. -/
theorem stepRefusesExactlyTheListedRequests : Obligations.StepRefusesExactlyTheListedRequests := by
  intro s r rest hr
  rw [step_refused_iff hr, not_asksForOperation_iff]
  simp only [or_assoc, opField, rsvField, idxField]

/-! ## A step runs what its request decodes to -/

theorem decodeTableWord_some {n w : Nat} {i : Instr} (h : decodeTableWord n w = some i) :
    decode (requestOfTableWord n w) = .ok i := by
  unfold decodeTableWord at h
  split at h
  · next j hd => rw [hd, Option.some.inj h]
  · exact nomatch h

/-- Settles O5: the step takes the first request and serves it, and with none it idles. -/
theorem stepRunsTheDecodedRequest : Obligations.StepRunsTheDecodedRequest := by
  refine ⟨fun s r rest i hr hd => ?_, fun s r rest why hr hd => ?_, fun s hr hs => ?_, fun s hr hs => ?_,
    fun s n w i hd => ?_⟩
  · rw [step_request hr, serve_decoded hd]
  · rw [step_request hr, serve_illFormed hd]
  · simp [step_waiting hr, idle, hs]
  · simp [step_waiting hr, idle, hs]
  · exact (step_request rfl).trans (serve_decoded (decodeTableWord_some hd) s)

/-! ## Answers (R64, R65) -/

/-- R64, the column DATA of a response OK. -/
def DataInTable (d : Word) : Instr → Prop
  | .translate _ => True
  | .read _ => d.toNat < 256
  | .readPhys _ => d.toNat < 256
  | .reserved _ _ _ => False
  | _ => d = 0#64

/-- R64, R65: the responses an operation may give. -/
inductive LegalAnswer (i : Instr) : Response → Prop
  | ok {d : Word} : DataInTable d i → LegalAnswer i ⟨.ok, d⟩
  | pageFault : (∃ va, i = .translate va ∨ i = .read va) → LegalAnswer i ⟨.pageFault, 0#64⟩
  | fatal : LegalAnswer i ⟨.fatal, 0#64⟩

theorem byte_setWidth_lt (b : Byte) : (b.setWidth 64 : Word).toNat < 256 := by
  have := b.isLt
  rw [BitVec.toNat_setWidth]
  omega

/-- R65, R220: an exception's answer is legal for the operations that walk. -/
theorem legalAnswer_exception {i : Instr} (hi : ∃ va, i = .translate va ∨ i = .read va) (e : Exception) :
    LegalAnswer i ⟨exceptionStatus e, 0#64⟩ := by
  cases e with
  | pageFault => exact .pageFault hi
  | outOfBounds => exact .fatal

theorem execTranslate_answer {va : VirtAddr} {s t : State} (h : exec (.translate va) s = .next t) :
    (∃ pa, t.response = some ⟨.ok, pa⟩) ∨ ∃ e, t.response = some ⟨exceptionStatus e, 0#64⟩ := by
  obtain ⟨-, ⟨_, -, rfl⟩ | ⟨-, _, -, rfl⟩ | ⟨-, e, -, rfl⟩⟩ := execTranslate_next h
  · exact .inl ⟨_, rfl⟩
  · exact .inl ⟨_, rfl⟩
  · exact .inr ⟨e, rfl⟩

theorem execReadPhys_answer {pa : PhysAddr} {s t : State} (h : exec (.readPhys pa) s = .next t) :
    (∃ b : Byte, t.response = some ⟨.ok, b.setWidth 64⟩) ∨ t.response = some ⟨.fatal, 0#64⟩ := by
  obtain ⟨-, ⟨_, -, rfl⟩ | ⟨-, -, rfl⟩ | ⟨-, -, rfl⟩⟩ := execReadPhys_next h
  · exact .inl ⟨_, rfl⟩
  · exact .inl ⟨_, rfl⟩
  · exact .inr rfl

theorem edit_answer {s t : State} {a : PhysAddr} {k : TableIndex} {e : Word}
    (h : whenRunning s (whenAligned a (perform (editOp a k e) s)) = .next t) :
    t.response = some ⟨.ok, 0#64⟩ ∨ t.response = some ⟨.fatal, 0#64⟩ := by
  obtain ⟨-, -, ⟨-, rfl⟩ | ⟨-, rfl⟩⟩ := edit_next h
  · exact .inl rfl
  · exact .inr rfl

/-- R64, R65: an operation that is not refused gives one of its legal answers. -/
theorem exec_legalAnswer {i : Instr} {s t : State} (h : exec i s = .next t) :
    ∃ r, t.response = some r ∧ LegalAnswer i r := by
  cases i with
  | translate va =>
    obtain ⟨_, hr⟩ | ⟨e, hr⟩ := execTranslate_answer h
    · exact ⟨_, hr, .ok trivial⟩
    · exact ⟨_, hr, legalAnswer_exception ⟨va, .inl rfl⟩ e⟩
  | read va =>
    obtain ⟨-, u, hu, ⟨hn, rfl⟩ | ⟨_, v, -, hv, rfl⟩⟩ := execRead_next h
    · obtain ⟨pa, hr⟩ | ⟨e, hr⟩ := execTranslate_answer hu
      · exact absurd hr (hn pa)
      · exact ⟨_, hr, legalAnswer_exception ⟨va, .inr rfl⟩ e⟩
    · obtain ⟨b, hr⟩ | hr := execReadPhys_answer hv
      · exact ⟨_, hr, .ok (byte_setWidth_lt b)⟩
      · exact ⟨_, hr, .fatal⟩
  | readPhys pa =>
    obtain ⟨b, hr⟩ | hr := execReadPhys_answer h
    · exact ⟨_, hr, .ok (byte_setWidth_lt b)⟩
    · exact ⟨_, hr, .fatal⟩
  | mapPage a k x =>
    obtain hr | hr := edit_answer h
    · exact ⟨_, hr, .ok rfl⟩
    · exact ⟨_, hr, .fatal⟩
  | unmapPage a k =>
    obtain hr | hr := edit_answer h
    · exact ⟨_, hr, .ok rfl⟩
    · exact ⟨_, hr, .fatal⟩
  | invalidateTlb => obtain ⟨-, rfl⟩ := execInvalidateTlb_next h; exact ⟨_, rfl, .ok rfl⟩
  | invalidateCache => obtain ⟨-, rfl⟩ := execInvalidateCache_next h; exact ⟨_, rfl, .ok rfl⟩
  | reserved u a b => exact absurd h execReserved_next

/-- R64: DATA of a read is a byte, with whatever STATUS. -/
theorem LegalAnswer.data_of_read {i : Instr} {r : Response} (h : LegalAnswer i r)
    (hi : ∃ x, i = .read x ∨ i = .readPhys x) : r.data.toNat < 256 := by
  cases h with
  | ok hd => obtain ⟨x, rfl | rfl⟩ := hi <;> exact hd
  | pageFault _ => exact Nat.zero_lt_succ _
  | fatal => exact Nat.zero_lt_succ _

/-- R64: DATA of an edit or an invalidation is 0, with whatever STATUS. -/
theorem LegalAnswer.data_of_edit {i : Instr} {r : Response} (h : LegalAnswer i r)
    (hi : (∃ l k x, i = .mapPage l k x) ∨ (∃ l k, i = .unmapPage l k) ∨ i = .invalidateTlb ∨ i = .invalidateCache) :
    r.data = 0#64 := by
  cases h with
  | ok hd => obtain ⟨_, _, _, rfl⟩ | ⟨_, _, rfl⟩ | rfl | rfl := hi <;> exact hd
  | pageFault _ => rfl
  | fatal => rfl

/-- Settles O44: every answer is a legal one, and an answer FATAL halts the block. -/
theorem responsesFollowTheTable : Obligations.ResponsesFollowTheTable := by
  intro i s t h
  obtain ⟨r, hr, hlegal⟩ := exec_legalAnswer h
  refine ⟨r, hr, ?_, ?_, ?_, ?_, hlegal.data_of_read, hlegal.data_of_edit⟩
  · cases r.status <;> decide
  · cases hlegal with
    | ok _ => exact fun hc => absurd rfl hc
    | pageFault _ => exact fun _ => rfl
    | fatal => exact fun _ => rfl
  · cases hlegal with
    | ok _ => simp [statusCode]
    | pageFault hi => exact fun _ => hi
    | fatal => simp [statusCode]
  · cases hlegal with
    | ok _ => simp [statusCode]
    | pageFault _ => simp [statusCode]
    | fatal => exact fun _ => (exec_haltedIffFatal h).mpr ⟨_, hr⟩

/-! ## Pulses (R66) -/

theorem execTranslate_events {va : VirtAddr} {s t : State} (h : exec (.translate va) s = .next t) :
    t.events = [.tlbHit] ∨ t.events = [.tlbMiss] := by
  obtain ⟨-, ⟨_, -, rfl⟩ | ⟨-, _, -, rfl⟩ | ⟨-, _, -, rfl⟩⟩ := execTranslate_next h
  · exact .inl rfl
  · exact .inr rfl
  · exact .inr rfl

theorem execReadPhys_events {pa : PhysAddr} {s t : State} (h : exec (.readPhys pa) s = .next t) :
    t.events = [.l1Hit] ∨ t.events = [.l1Miss] := by
  obtain ⟨-, ⟨_, -, rfl⟩ | ⟨-, -, rfl⟩ | ⟨-, -, rfl⟩⟩ := execReadPhys_next h
  · exact .inl rfl
  · exact .inr rfl
  · exact .inr rfl

theorem edit_events {s t : State} {a : PhysAddr} {k : TableIndex} {e : Word}
    (h : whenRunning s (whenAligned a (perform (editOp a k e) s)) = .next t) : t.events = [] := by
  obtain ⟨-, -, ⟨-, rfl⟩ | ⟨-, rfl⟩⟩ := edit_next h <;> rfl

/-- R66, R182: READ pulses what its translation pulses, and then, unless that failed, what `read_phys` of its result pulses. -/
theorem execRead_events {va : VirtAddr} {s t : State} (h : exec (.read va) s = .next t) :
    ∃ u, exec (.translate va) s = .next u ∧
      ((∃ pa, u.response = some ⟨.ok, pa⟩) → t.events = u.events ++ [.l1Hit] ∨ t.events = u.events ++ [.l1Miss]) ∧
      ((∀ pa, u.response ≠ some ⟨.ok, pa⟩) → t.events = u.events) := by
  obtain ⟨-, u, hu, ⟨hn, rfl⟩ | ⟨pa, v, hpa, hv, rfl⟩⟩ := execRead_next h
  · exact ⟨t, hu, fun ⟨pa, hpa⟩ => absurd hpa (hn pa), fun _ => rfl⟩
  · exact ⟨u, hu, fun _ => (execReadPhys_events hv).imp (congrArg _) (congrArg _), fun hn => absurd hpa (hn pa)⟩

/-- Settles O45: the pulses of each operation, read off its next state. -/
theorem eventsFollowTheRule : Obligations.EventsFollowTheRule := by
  refine fun s t => ⟨fun _ => execTranslate_events, fun _ => execReadPhys_events, fun _ => execRead_events,
    fun _ _ _ => edit_events, fun _ _ => edit_events, fun h => ?_, fun h => ?_⟩
  · obtain ⟨-, rfl⟩ := execInvalidateTlb_next h
    rfl
  · obtain ⟨-, rfl⟩ := execInvalidateCache_next h
    rfl

/-! ## Words and lines of the spec -/

/-- Settles O6: each word is decoded, field by field. -/
theorem specWordsDecode : Obligations.SpecWordsDecode := by
  unfold Obligations.SpecWordsDecode
  decide

/-- Settles O54: each line is assembled, character by character. -/
theorem assemblerGivesTheSpecRequests : Obligations.AssemblerGivesTheSpecRequests := by
  unfold Obligations.AssemblerGivesTheSpecRequests
  decide

end Sys2Proof.Machine

/-! PROOFS. The statement of 40_address_types. First that an address is its frame number and its offset appended, for the address
taken apart and for the two functions that build one; then the four indices. -/

namespace Sys2Proof.Machine

/-! ## An address is its frame number and its offset (R80 to R86) -/

/-- R80, R81, R86: bits 63:12 and bits 11:0 are all of an address. -/
theorem frame_append_offset (a : Word) : frame a ++ offset a = a :=
  BitVec.extractLsb'_append_extractLsb'

/-- The frame number of an append is its high half. -/
@[simp] theorem frame_append (f : Frame) (o : BitVec 12) : frame (f ++ o) = f :=
  BitVec.extractLsb'_append_eq_left

/-- The offset of an append is its low half. -/
@[simp] theorem offset_append (f : Frame) (o : BitVec 12) : offset (f ++ o) = o :=
  BitVec.extractLsb'_append_eq_right

/-- R84: the mask keeps the frame of the one and the offset of the other. -/
theorem withOffset_eq_append (pa off : Word) : withOffset pa off = frame pa ++ offset off := by
  ext i hi
  rw [withOffset_getElem, BitVec.getElem_append (n := 52)]
  by_cases hlow : i < 12
  · simp [hlow, offset, BitVec.getLsbD_eq_getElem hi]
  · simp [hlow, frame, Nat.add_sub_cancel' (not_lt.mp hlow), BitVec.getLsbD_eq_getElem hi]

/-- R82: the shift drops all but the low 52 bits of the frame number, the mask all but the low 12 of the offset. -/
theorem physFrom_eq_append (fr off : Word) : physFrom fr off = fr.extractLsb' 0 52 ++ offset off := by
  ext i hi
  have hmask : offsetMask[i] = decide (i < 12) := lowMask_getElem 12 i hi
  rw [BitVec.getElem_append (n := 52)]
  by_cases hlow : i < 12
  · simp [physFrom, hmask, hlow, offset, BitVec.getLsbD_eq_getElem hi]
  · simp [physFrom, hmask, hlow, BitVec.getLsbD_eq_getElem (show i - 12 < 64 by omega)]

/-- R82: built of its own fields, an address is itself. -/
theorem physFrom_frame_offset (pa : PhysAddr) : physFrom ((frame pa).setWidth 64) ((offset pa).setWidth 64) = pa := by
  have hframe : ((frame pa).setWidth 64).extractLsb' 0 52 = frame pa := by
    rw [BitVec.extractLsb'_setWidth_of_le (by decide), BitVec.extractLsb'_eq_self]
  have hoffset : offset ((offset pa).setWidth 64) = offset pa := by
    rw [offset, BitVec.extractLsb'_setWidth_of_le (by decide), BitVec.extractLsb'_eq_self]
  rw [physFrom_eq_append, hframe, hoffset, frame_append_offset]

/-- R85: the fields are adjacent, so each append extends the range of bits by the next field. -/
theorem indices_append_offset (va : VirtAddr) :
    vpn1 va ++ vpn2 va ++ vpn3 va ++ vpn4 va ++ offset va = va.extractLsb' 0 48 := by
  have h12 : vpn1 va ++ vpn2 va = va.extractLsb' 30 18 := BitVec.extractLsb'_append_extractLsb'_eq_extractLsb' rfl
  have h123 : va.extractLsb' 30 18 ++ vpn3 va = va.extractLsb' 21 27 :=
    BitVec.extractLsb'_append_extractLsb'_eq_extractLsb' rfl
  have h1234 : va.extractLsb' 21 27 ++ vpn4 va = va.extractLsb' 12 36 :=
    BitVec.extractLsb'_append_extractLsb'_eq_extractLsb' rfl
  have hoffset : va.extractLsb' 12 36 ++ offset va = va.extractLsb' 0 48 :=
    BitVec.extractLsb'_append_extractLsb'_eq_extractLsb' rfl
  rw [h12, h123, h1234, hoffset]

/-- Settles O7: every address, taken apart or built, is an append of its fields. -/
theorem addressFieldsRecombine : Obligations.AddressFieldsRecombine := by
  refine ⟨fun va => (indices_append_offset va).symm, fun va => (frame_append_offset va).symm, physFrom_frame_offset,
    fun pa off => ?_, fun fr off => ?_⟩
  · rw [withOffset_eq_append]
    exact ⟨frame_append _ _, offset_append _ _⟩
  · rw [physFrom_eq_append]
    exact ⟨frame_append _ _, offset_append _ _⟩

end Sys2Proof.Machine

/-! PROOFS. The statements of 41_page_table_entry. An entry is a frame number and 12 low bits appended, for the entry a constructor
builds and for the address a query gives. -/

namespace Sys2Proof.Machine

/-! ## Fields of a masked word -/

theorem frame_and (a b : Word) : frame (a &&& b) = frame a &&& frame b := BitVec.extractLsb'_and

theorem frame_xor (a b : Word) : frame (a ^^^ b) = frame a ^^^ frame b := BitVec.extractLsb'_xor

/-- Bits 11:1 (R105) lie outside the frame number. -/
theorem frame_xor_reserved (e r : Word) : frame (e ^^^ (r &&& 0xFFE#64)) = frame e := by
  have hmask : frame 0xFFE#64 = 0#52 := by decide
  rw [frame_xor, frame_and, hmask, BitVec.and_zero, BitVec.xor_zero]

/-! ## An entry is a frame number and 12 low bits (R100 to R104) -/

/-- R102: the address a query gives is the entry's frame number over offset 0. -/
theorem physAddr_eq_append (e : Word) : physAddr e = frame e ++ 0#12 := by
  have h : physAddr e = withOffset e 0#64 := BitVec.or_zero.symm
  rw [h, withOffset_eq_append]
  rfl

/-- R103: a present entry is its target's frame number over the low bits 1. -/
theorem newPresent_eq_append (x : PhysAddr) : newPresent x = frame x ++ 1#12 := by
  have h : newPresent x = withOffset x 1#64 := rfl
  rw [h, withOffset_eq_append]
  rfl

/-- R101: the presence bit is the lowest of the low bits. -/
@[simp] theorem isPresent_append (f : Frame) (o : BitVec 12) : isPresent (f ++ o) = o.getLsbD 0 :=
  BitVec.getLsbD_append

/-- The mask `0xFFF` keeps the low bits alone. -/
theorem append_and_offsetMask (f : Frame) (o : BitVec 12) : (f ++ o) &&& 0xFFF#64 = 0#52 ++ o := by
  have hmask : 0xFFF#64 = 0#52 ++ BitVec.allOnes 12 := by decide
  rw [hmask, BitVec.and_append, BitVec.and_zero, BitVec.and_allOnes]

/-- Entries built alike differ only in the frame number. -/
theorem newPresent_inj_iff (x y : PhysAddr) : newPresent x = newPresent y ↔ frame x = frame y := by
  rw [newPresent_eq_append, newPresent_eq_append]
  constructor
  · intro h
    rw [← frame_append (frame x) 1#12, h, frame_append]
  · intro h
    rw [h]

/-! ## The statements -/

/-- R101 to R103: the queries of a present entry, and its low bits. -/
theorem newPresent_queries (x : PhysAddr) :
    isPresent (newPresent x) = true ∧ physAddr (newPresent x) = physAddr x ∧ newPresent x &&& 0xFFF#64 = 1#64 := by
  rw [physAddr_eq_append, physAddr_eq_append, newPresent_eq_append, isPresent_append, frame_append,
    append_and_offsetMask]
  exact ⟨rfl, rfl, rfl⟩

/-- R105: bits 11:1 take no part in either query. -/
theorem queries_xor_reserved (e r : Word) :
    isPresent (e ^^^ (r &&& 0xFFE#64)) = isPresent e ∧ physAddr (e ^^^ (r &&& 0xFFE#64)) = physAddr e := by
  constructor
  · simp [isPresent]
  · rw [physAddr_eq_append, frame_xor_reserved, ← physAddr_eq_append]

/-- Settles O9: the queries read the fields of the append a constructor builds, and bits 11:1 are in neither field they read. -/
theorem pteQueriesReadConstructors : Obligations.PteQueriesReadConstructors :=
  ⟨newPresent_queries, ⟨rfl, rfl⟩, frameAligned_physAddr, queries_xor_reserved⟩

/-- Settles O10: a present entry is its frame number over fixed low bits. -/
theorem pteFrameIsBits63To12 : Obligations.PteFrameIsBits63To12 := newPresent_inj_iff

end Sys2Proof.Machine

/-! PROOFS. The statements of 42_tlb, with the selects of 43_l1_cache. First the scan for the lowest counter, one step at a time,
and that its result is the only way of its kind; then what an insert leaves, set by set. -/

namespace Sys2Proof.Machine

/-! ## The scan for the lowest counter (R124) -/

/-- Way `b` has the lowest counter of the ways before place `n`, and a lower one than every way before it. -/
def LowestBelow (ways : TlbWays) (n : Nat) (b : Fin 4) : Prop :=
  (∀ w : Fin 4, w.val < n → ways[b].ctr ≤ ways[w].ctr) ∧ ∀ w : Fin 4, w < b → ways[b].ctr < ways[w].ctr

theorem lowestBelow_one (ways : TlbWays) : LowestBelow ways 1 0 := by
  refine ⟨fun w hw => ?_, fun w hw => absurd hw (Fin.not_lt_zero w)⟩
  obtain rfl : w = 0 := Fin.ext (Nat.lt_one_iff.mp hw)
  exact le_rfl

/-- The scan takes the next way only for a strictly lower counter, so ties keep the lower index. -/
theorem LowestBelow.lowerCounter {ways : TlbWays} {b v : Fin 4} (h : LowestBelow ways v.val b) :
    LowestBelow ways (v.val + 1) (lowerCounter ways b v) := by
  obtain ⟨hle, hlt⟩ := h
  by_cases hv : ways[v].ctr < ways[b].ctr
  · have hbefore : ∀ w : Fin 4, w < v → ways[v].ctr < ways[w].ctr := fun w hw => hv.trans_le (hle w hw)
    rw [Machine.lowerCounter, if_pos hv]
    refine ⟨fun w hw => ?_, hbefore⟩
    rcases Nat.lt_succ_iff_lt_or_eq.mp hw with hw | hw
    · exact (hbefore w hw).le
    · rw [Fin.ext hw]
  · rw [Machine.lowerCounter, if_neg hv]
    refine ⟨fun w hw => ?_, hlt⟩
    rcases Nat.lt_succ_iff_lt_or_eq.mp hw with hw | hw
    · exact hle w hw
    · rw [Fin.ext hw]
      exact not_lt.mp hv

/-- The scan of a full set starts at way 0 and takes ways 1, 2 and 3 in turn. -/
theorem tlbVictim_lowest {ways : TlbWays} (h : ∀ w : Fin 4, ways[w].valid = true) : LowestBelow ways 4 (tlbVictim ways) := by
  rw [tlbVictim_of_full h]
  have h1 := (lowestBelow_one ways).lowerCounter (v := 1)
  have h2 := h1.lowerCounter (v := 2)
  exact h2.lowerCounter (v := 3)

/-- The first of the lowest is not behind another of the lowest, since every way before it has a higher counter. -/
theorem LowestBelow.le {ways : TlbWays} {u v : Fin 4} (hu : LowestBelow ways 4 u) (hv : LowestBelow ways 4 v) : u ≤ v := by
  by_contra h
  have hless := hu.2 v (not_le.mp h)
  exact (hv.1 u u.isLt).not_gt hless

/-- At most one way of a set is the first of the lowest. -/
theorem LowestBelow.unique {ways : TlbWays} {u v : Fin 4} (hu : LowestBelow ways 4 u) (hv : LowestBelow ways 4 v) : u = v :=
  le_antisymm (hu.le hv) (hv.le hu)

/-- Settles O18: the scan for an invalid way stops at the first, and the scan for the lowest counter keeps the first lowest. -/
theorem tlbVictimIsFirstInvalidOrLowestCounter : Obligations.TlbVictimIsFirstInvalidOrLowestCounter := by
  refine fun ways => ⟨tlbVictim_of_invalid, fun hfull => ?_⟩
  obtain ⟨hle, hlt⟩ := tlbVictim_lowest hfull
  exact ⟨fun w => hle w w.isLt, hlt⟩

/-! ## Inserts (R125, R128) -/

/-- Settles O19: the insert puts one set, whose ways are the victim's new contents and the others with their counters 0. -/
theorem tlbInsertClearsTheWholeSet : Obligations.TlbInsertClearsTheWholeSet := by
  refine fun s va pa => ⟨fun w => ?_, fun i hi => ?_, rfl⟩
  · rw [tlbInsert, tlb_putTlbSet_get, if_pos rfl, insertWay_get]
    rfl
  · rw [tlbInsert, tlb_putTlbSet_get, if_neg hi]

/-- R128: where only way `j` has a counter above 0, the first of the lowest is way 0, or way 1 when `j` is way 0. -/
theorem lowestBelow_of_one_counter {ways : TlbWays} {j : Fin 4} (h : ∀ w : Fin 4, ways[w].ctr = if w = j then 1 else 0) :
    LowestBelow ways 4 (if j = 0 then 1 else 0) := by
  by_cases hj : j = 0
  · rw [if_pos hj]
    have h1 : ways[(1 : Fin 4)].ctr = 0 := by rw [h, hj]; rfl
    refine ⟨fun w _ => h1 ▸ Nat.zero_le _, fun w hw => ?_⟩
    obtain rfl : w = 0 := (Fin.lt_one_iff w).mp hw
    rw [h1, h, if_pos hj.symm]
    exact Nat.one_pos
  · rw [if_neg hj]
    have h0 : ways[(0 : Fin 4)].ctr = 0 := by rw [h, if_neg (Ne.symm hj)]
    exact ⟨fun w _ => h0 ▸ Nat.zero_le _, fun w hw => absurd hw (Fin.not_lt_zero w)⟩

/-- R122: every legal limit lets a counter go from 0 to 1. -/
theorem satInc_zero {m : Nat} (h : 1 ≤ m) : satInc m 0 = 1 := Nat.min_eq_left h

/-- R125: an insert into a full set leaves a full set in which the victim alone has a counter above 0. -/
theorem insertWay_full {ways : TlbWays} {m : Nat} (t : Word) (pa : PhysAddr) (hm : 1 ≤ m)
    (h : ∀ w : Fin 4, ways[w].valid = true) (w : Fin 4) :
    (insertWay m ways t pa)[w].valid = true ∧ (insertWay m ways t pa)[w].ctr = if w = tlbVictim ways then 1 else 0 := by
  rw [insertWay_get]
  by_cases hw : w = tlbVictim ways
  · rw [if_pos hw, if_pos hw]
    exact ⟨rfl, satInc_zero hm⟩
  · rw [if_neg hw, if_neg hw]
    exact ⟨h w, rfl⟩

/-- Settles O20: the first of the lowest counters is the victim, and the insert leaves the victim alone with a counter of 1. -/
theorem fullTlbSetEvictsWaysZeroAndOne : Obligations.FullTlbSetEvictsWaysZeroAndOne := by
  intro ways j ctrMax t pa hmax h
  have hfull : ∀ w : Fin 4, ways[w].valid = true := fun w => (h w).1
  have hlowest := lowestBelow_of_one_counter fun w => (h w).2
  exact ⟨(tlbVictim_lowest hfull).unique hlowest, insertWay_full t pa hmax hfull⟩

/-! ## Set and tag (R121, R151, R152) -/

/-- R151: the line base is a sum of the set and the tag, so they determine it. -/
theorem l1Base_of_set_tag {p q : PhysAddr} (hs : l1Set p = l1Set q) (ht : l1Tag p = l1Tag q) : l1Base p = l1Base q :=
  BitVec.eq_of_toNat_eq (by rw [l1Base_eq, l1Base_eq, hs, ht])

/-- Settles O8: the VPN and the line base are sums of their set and tag, and the byte select is the rest of the address. -/
theorem selectsDetermineTheAddress : Obligations.SelectsDetermineTheAddress :=
  ⟨fun _ _ => vpn_of_set_tag, fun _ _ => l1Base_of_set_tag, fun p => ⟨l1Base_eq p, toNat_eq_l1Base_add p⟩⟩

end Sys2Proof.Machine

/-! PROOFS. The statements of 43_l1_cache. First which way a fill takes; then what it leaves in the set; then the access that
follows it. -/

namespace Sys2Proof.Machine

/-! ## Victim (R154, R157) -/

/-- Settles O23: the scan keeps the last invalid way it meets, and way 0 when it meets none. -/
theorem l1VictimIsLastInvalidOrWayZero : Obligations.L1VictimIsLastInvalidOrWayZero :=
  fun _ => ⟨l1Victim_of_invalid, l1Victim_of_full⟩

/-- R154: only one way is invalid with every way after it valid, so the victim is that one. -/
theorem l1Victim_eq_of_last_invalid {ways : L1Ways} {v : Fin 8} (hv : ways[v].valid = false)
    (h : ∀ w : Fin 8, v < w → ways[w].valid = true) : l1Victim ways = v := by
  obtain ⟨hinv, hlast⟩ := l1Victim_of_invalid ⟨v, hv⟩
  rcases lt_trichotomy (l1Victim ways) v with hlt | heq | hgt
  · exact absurd (hv.symm.trans (hlast v hlt)) nofun
  · exact heq
  · exact absurd (hinv.symm.trans (h _ hgt)) nofun

/-- R157: of a set whose valid ways are those from `n` on, the last invalid way is `n - 1`. -/
theorem l1Victim_of_valid_from {ways : L1Ways} {n : Fin 8} (hn : 0 < n) (h : ∀ w : Fin 8, ways[w].valid = true ↔ n ≤ w) :
    (l1Victim ways).val = n.val - 1 := by
  have hpos : 0 < n.val := hn
  refine congrArg Fin.val (l1Victim_eq_of_last_invalid (v := ⟨n.val - 1, by omega⟩) ?_ fun w hw => ?_)
  · refine Bool.eq_false_iff.mpr fun hc => ?_
    have hle : n.val ≤ n.val - 1 := (h _).mp hc
    omega
  · have hlt : n.val - 1 < w.val := hw
    exact (h w).mpr (Fin.le_def.mpr (by omega))

/-- R157: of an empty set the last invalid way is way 7. -/
theorem l1Victim_of_empty {ways : L1Ways} (h : ∀ w : Fin 8, ways[w].valid = false) : l1Victim ways = 7 :=
  l1Victim_eq_of_last_invalid (h 7) fun w hw => absurd (Fin.le_last w) (not_le.mpr hw)

/-! ## Fill (R155, R157) -/

theorem fillWay_victim {ways : L1Ways} {w : Fin 8} (t : Frame) (data : Line) (hw : w = l1Victim ways) :
    (fillWay ways t data)[w] = { valid := true, tag := t, line := data } := by
  rw [fillWay_get, if_pos hw]

theorem fillWay_other {ways : L1Ways} {w : Fin 8} (t : Frame) (data : Line) (hw : w ≠ l1Victim ways) :
    (fillWay ways t data)[w] = ways[w] := by
  rw [fillWay_get, if_neg hw]

theorem fillWay_valid_iff (ways : L1Ways) (t : Frame) (data : Line) (w : Fin 8) :
    (fillWay ways t data)[w].valid = true ↔ w = l1Victim ways ∨ ways[w].valid = true := by
  by_cases hw : w = l1Victim ways
  · rw [fillWay_victim t data hw]
    exact iff_of_true rfl (.inl hw)
  · rw [fillWay_other t data hw, or_iff_right hw]

/-- Settles O24: the fill writes the victim way of its set, which is way `n - 1`, way 7 or way 0. -/
theorem l1SetFillsDownwardThenWayZero : Obligations.L1SetFillsDownwardThenWayZero := by
  intro s t pa b h
  obtain ⟨-, -, rfl⟩ := l1Fill_ok h
  simp only [l1SetOf_putL1Set, fillWay_valid_iff]
  refine ⟨_, loadLine_get _ _, fun n hn hfrom w => ?_, fun hempty w => ?_, fun hfull w => ?_⟩
  · have hvictim : w = l1Victim (l1SetOf s pa) ↔ w.val = n.val - 1 := by
      rw [Fin.ext_iff, l1Victim_of_valid_from hn hfrom]
    refine ⟨?_, fun hw => fillWay_victim _ _ (hvictim.mpr hw), fun hw => fillWay_other _ _ (mt hvictim.mp hw)⟩
    rw [hvictim, hfrom, Fin.le_def]
    omega
  · rw [← l1Victim_of_empty hempty]
    exact ⟨by simp only [hempty, Bool.false_eq_true, or_false], fillWay_victim _ _, fillWay_other _ _⟩
  · rw [← l1Victim_of_full hfull]
    exact ⟨.inr (hfull w), fillWay_victim _ _, fillWay_other _ _⟩

/-! ## The next access to a block (R153, R155, R183) -/

/-- R153, R155: an address that missed hits, once its block is filled, in the way the fill took. -/
theorem l1Hits_filled {s : State} {pa : PhysAddr} (data : Line) (h : L1Misses s pa) :
    L1Hits (putL1Set pa (fillWay (l1SetOf s pa) (l1Tag pa) data) s) pa (l1Victim (l1SetOf s pa)) := by
  rw [L1Hits, l1SetOf_putL1Set, fillWay_victim _ _ rfl]
  refine ⟨⟨rfl, rfl⟩, fun v hv => ?_⟩
  rw [fillWay_other _ _ hv.ne]
  exact h v

/-- R151, R152: every byte of a block hits where one of them hits. -/
theorem l1Hits_of_base {s t : State} {p q : PhysAddr} {w : Fin 8} (hl : t.l1 = s.l1) (hb : l1Base q = l1Base p)
    (h : L1Hits s p w) : L1Hits t q w :=
  (l1Hits_congr hl (l1Set_eq_of_base hb) (l1Tag_eq_of_base hb) w).mpr h

/-- R155: the line of a block just filled answers each byte of the block as memory does. -/
theorem filled_byte {s t : State} {p q : PhysAddr} (hb : l1Base q = l1Base p)
    (hl : t.l1 = (putL1Set p (fillWay (l1SetOf s p) (l1Tag p) (loadLine s.mem (l1Base p).toNat)) s).l1) :
    (l1SetOf t q)[l1Victim (l1SetOf s p)].line[l1Byte q] = readByte s.mem q.toNat := by
  rw [l1SetOf, hl, l1_putL1Set_get, if_pos (l1Set_eq_of_base hb), fillWay_victim _ _ rfl, ← hb, loadLine_byte]

/-- Settles O26: the way the first access hit or filled is the one the second hits. -/
theorem secondReadOfABlockHits : Obligations.SecondReadOfABlockHits := by
  intro s t p q d h hok hb
  obtain ⟨hs, ⟨w, hw, rfl⟩ | ⟨hm, -, rfl⟩ | ⟨-, -, rfl⟩⟩ := execReadPhys_next h
  · exact ⟨_, _, execReadPhys_hit hs (l1Hits_of_base rfl hb hw), rfl, rfl, rfl, nofun⟩
  · exact ⟨_, _, execReadPhys_hit hs (l1Hits_of_base rfl hb (l1Hits_filled _ hm)), rfl, rfl, rfl,
      fun _ => congrArg _ (filled_byte hb rfl)⟩
  · exact nomatch hok

end Sys2Proof.Machine

/-! PROOFS. The statements of 44_machine_operations. First the walk and its three answers; then TRANSLATE, the translation that
follows it, and the state machine that says it again; then the two reads, the table edits and the invalidations; last that none
of them looks at the channels. -/

namespace Sys2Proof.Machine

/-! ## The walk (R180) -/

/-- R85: the four indices are fields of bits 47:12. -/
theorem vpnLevel_congr {u v : VirtAddr} (h : u.extractLsb' 12 36 = v.extractLsb' 12 36) (k : Level) :
    vpnLevel u k = vpnLevel v k := by
  have hfield : ∀ i, i + 9 ≤ 36 → u.extractLsb' (12 + i) 9 = v.extractLsb' (12 + i) 9 := fun i hi => by
    ext j hj
    have hbit := congrArg (BitVec.getLsbD · (i + j)) h
    simpa [show i + j < 36 by omega, Nat.add_assoc] using hbit
  cases k with
  | level1 => exact hfield 27 (by decide)
  | level2 => exact hfield 18 (by decide)
  | level3 => exact hfield 9 (by decide)
  | level4 => exact hfield 0 (by decide)

/-- Settles O14: an address enters the walk through its four indices alone. -/
theorem walkReadsBits47To12Only : Obligations.WalkReadsBits47To12Only := by
  intro s u v h
  have hwalk : ∀ (l : List Level) (t : PhysAddr), walkFrom s u t l = walkFrom s v t l := by
    intro l
    induction l with
    | nil => exact fun _ => rfl
    | cons k rest ih => exact fun t => by simp only [walkFrom, vpnLevel_congr h, ih]
  exact hwalk levels s.cr3

/-- R180, R226: one level of the walk. The bounds check of its table comes first, then the present test of its entry. -/
theorem walkFrom_cons (s : State) (va : VirtAddr) (t : PhysAddr) (k : Level) (rest : List Level) :
    walkFrom s va t (k :: rest) =
      if TableInside s t then
        if isPresent (tableEntry s t (vpnLevel va k)) then walkFrom s va (physAddr (tableEntry s t (vpnLevel va k))) rest
        else .error .pageFault
      else .error .outOfBounds := by
  by_cases hin : TableInside s t
  · have hread : tableRead s t (vpnLevel va k) = .ok (tableEntry s t (vpnLevel va k)) := tableRead_inside _ hin
    simp only [walkFrom, hread, if_pos hin]
  · simp only [walkFrom, tableRead_outside _ hin, if_neg hin]

/-- R221: the walk page-faults at this level, whose table is inside memory and whose entry is not present, or further on. -/
theorem walkFrom_cons_pageFault_iff (s : State) (va : VirtAddr) (t : PhysAddr) (k : Level) (rest : List Level) :
    walkFrom s va t (k :: rest) = .error .pageFault ↔
      (TableInside s t ∧ isPresent (tableEntry s t (vpnLevel va k)) = false) ∨
        (TableInside s t ∧ isPresent (tableEntry s t (vpnLevel va k)) = true ∧
          walkFrom s va (physAddr (tableEntry s t (vpnLevel va k))) rest = .error .pageFault) := by
  rw [walkFrom_cons]
  split_ifs <;> simp [*]

/-- R223: the walk leaves memory at this level, whose table is outside memory, or further on. -/
theorem walkFrom_cons_outOfBounds_iff (s : State) (va : VirtAddr) (t : PhysAddr) (k : Level) (rest : List Level) :
    walkFrom s va t (k :: rest) = .error .outOfBounds ↔
      ¬TableInside s t ∨
        (TableInside s t ∧ isPresent (tableEntry s t (vpnLevel va k)) = true ∧
          walkFrom s va (physAddr (tableEntry s t (vpnLevel va k))) rest = .error .outOfBounds) := by
  rw [walkFrom_cons]
  split_ifs <;> simp [*]

theorem pageWalk_pageFault_iff (s : State) (va : VirtAddr) :
    pageWalk s va = .error .pageFault ↔ WalkPageFaults s va := by
  simp only [pageWalk, levels, walkFrom_cons_pageFault_iff, walkFrom_nil, reduceCtorEq, and_false, or_false,
    and_or_left, WalkPageFaults, Reaches4, Reaches3, Reaches2, and_assoc]
  rfl

theorem pageWalk_outOfBounds_iff (s : State) (va : VirtAddr) :
    pageWalk s va = .error .outOfBounds ↔ WalkLeavesMemory s va := by
  simp only [pageWalk, levels, walkFrom_cons_outOfBounds_iff, walkFrom_nil, reduceCtorEq, and_false, or_false,
    and_or_left, WalkLeavesMemory, Reaches4, Reaches3, Reaches2, and_assoc]
  rfl

/-- Settles O13: the three conditions are the three answers a walk has. -/
theorem pageWalkTakesFourLevels : Obligations.PageWalkTakesFourLevels := by
  intro s va
  refine ⟨fun h => (pageWalk_ok_iff s va _).mpr ⟨h, rfl⟩, (pageWalk_pageFault_iff s va).mpr,
    (pageWalk_outOfBounds_iff s va).mpr, ?_⟩
  rcases h : pageWalk s va with (_ | _) | f
  · exact .inr (.inl ((pageWalk_pageFault_iff s va).mp h))
  · exact .inr (.inr ((pageWalk_outOfBounds_iff s va).mp h))
  · exact .inl ((pageWalk_ok_iff s va f).mp h).1

/-! ## TRANSLATE (R181) -/

/-- R84: the offset an entry's address is recombined with takes the place of whatever low bits the entry has. -/
theorem withOffset_physAddr (e off : Word) : withOffset (physAddr e) off = withOffset e off := by
  have h : physAddr e = withOffset e 0#64 := BitVec.or_zero.symm
  rw [h, withOffset_withOffset]

/-- R181: TRANSLATE of an address that misses and whose walk ends. -/
theorem execTranslate_walked {s : State} {va : VirtAddr} {f : PhysAddr} (hs : s.halted = false) (hm : TlbMisses s va)
    (hf : pageWalk s va = .ok f) :
    exec (.translate va) s = .next { s with
      tlb := (tlbInsert va (withOffset f va) s).tlb, response := some ⟨.ok, withOffset f va⟩, events := [.tlbMiss] } :=
  (whenRunning_running hs _).trans
    (perform_ok (translateOp_walked (s := beginRequest s) hm ((pageWalk_congr rfl rfl rfl va).trans hf)))

/-- R181, R222, R224: TRANSLATE of an address that misses and whose walk fails takes the walk's exception. -/
theorem execTranslate_failed {s : State} {va : VirtAddr} {e : Exception} (hs : s.halted = false) (hm : TlbMisses s va)
    (he : pageWalk s va = .error e) :
    exec (.translate va) s = .next (takeException e (emit .tlbMiss (beginRequest s))) :=
  (whenRunning_running hs _).trans
    (perform_error (translateOp_failed (s := beginRequest s) hm ((pageWalk_congr rfl rfl rfl va).trans he)))

/-- Settles O15: a hit, and after a miss each of the three answers of the walk. -/
theorem translateFollowsItsRule : Obligations.TranslateFollowsItsRule := by
  intro s va hs
  refine ⟨fun w hw => execTranslate_hit hs hw, fun hm hmap => ?_,
    fun hm hpf => execTranslate_failed hs hm ((pageWalk_pageFault_iff s va).mpr hpf),
    fun hm hout => execTranslate_failed hs hm ((pageWalk_outOfBounds_iff s va).mpr hout)⟩
  rw [execTranslate_walked hs hm ((pageWalk_ok_iff s va _).mpr ⟨hmap, rfl⟩), withOffset_physAddr]
  rfl

/-! ## The next translation of the same page (R123, R181) -/

/-- R123: after a hit the same way hits. -/
theorem tlbHits_bumped {s : State} {va : VirtAddr} {w : Fin 4} (m : Nat) (h : TlbHits s va w) :
    TlbHits (putTlbSet va (bumpWay m (tlbSetOf s va) w) s) va w := by
  simpa only [TlbHits, tlbSetOf_putTlbSet, bumpWay_valid, bumpWay_tag] using h

/-- R125: an address that missed hits, once its translation is inserted, in the way the insert took. -/
theorem tlbHits_inserted {s : State} {va : VirtAddr} (pa : PhysAddr) (h : TlbMisses s va) :
    TlbHits (tlbInsert va pa s) va (tlbVictim (tlbSetOf s va)) := by
  simp only [TlbHits, tlbInsert, tlbSetOf_putTlbSet, insertWay_get]
  refine ⟨⟨rfl, rfl⟩, fun v hv => ?_⟩
  rw [if_neg hv.ne]
  exact h v

/-- R181: after a translation that answered, its page hits in a way that holds the frame answered. -/
theorem execTranslate_ok_hits {s t : State} {va : VirtAddr} {pa : PhysAddr} (h : exec (.translate va) s = .next t)
    (hok : t.response = some ⟨.ok, pa⟩) :
    t.halted = false ∧ t.mem = s.mem ∧
      ∃ w, TlbHits t va w ∧ ∀ off, withOffset (tlbSetOf t va)[w].pa off = withOffset pa off := by
  obtain ⟨hs, ⟨w, hw, rfl⟩ | ⟨hm, f, -, rfl⟩ | ⟨-, e, -, rfl⟩⟩ := execTranslate_next h
  · obtain rfl : withOffset (tlbSetOf s va)[w].pa va = pa := by simpa using hok
    refine ⟨hs, rfl, w, tlbHits_bumped s.tlbCtrMax hw, fun off => ?_⟩
    change withOffset (tlbSetOf (putTlbSet va (bumpWay s.tlbCtrMax (tlbSetOf s va) w) s) va)[w].pa off = _
    rw [tlbSetOf_putTlbSet, bumpWay_get, if_pos rfl, withOffset_withOffset]
  · obtain rfl : withOffset f va = pa := by simpa using hok
    refine ⟨hs, rfl, _, tlbHits_inserted _ hm, fun off => ?_⟩
    change withOffset (tlbSetOf (tlbInsert va (withOffset f va) s) va)[tlbVictim (tlbSetOf s va)].pa off = _
    rw [tlbInsert, tlbSetOf_putTlbSet, insertWay_get, if_pos rfl]
  · cases e <;> simp [exceptionStatus] at hok

/-- Settles O16: the second address looks for the same tag in the same set, and so hits in the way the first left. -/
theorem secondTranslationHits : Obligations.SecondTranslationHits := by
  intro s t va vb pa h hok hv
  obtain ⟨ht, hmem, w, hw, hpa⟩ := execTranslate_ok_hits h hok
  refine ⟨_, execTranslate_hit ht ((tlbHits_congr rfl hv w).mpr hw), ?_, rfl, hmem⟩
  simp only [tlbSetOf, hv]
  exact congrArg _ (congrArg _ (hpa vb))

/-! ## The translation state machine (R188) -/

/-- The terminal state that answers with a result of `translate`. -/
def terminal : Except Exception PhysAddr → TransState
  | .ok pa => .done pa
  | .error .pageFault => .pageFault
  | .error .outOfBounds => .fatal

/-- Where the machine ends, and the state it leaves, after a miss whose walk gives this result. -/
def walkEnd (va : VirtAddr) (s : State) : Except Exception PhysAddr → TransState × State
  | .ok f => (.done (withOffset f va), tlbInsert va (withOffset f va) s)
  | .error e => (terminal (.error e), s)

/-- Where the machine goes from a present entry that points at `a`: to the next level, if there is one, or to the end. -/
def walkOn (va : VirtAddr) (s : State) (a : PhysAddr) : Option Level → TransState × State
  | some k => (.walking k a, s)
  | none => walkEnd va s (.ok a)

/-- One transition from a level looks at its table as one level of the walk does. -/
theorem transStep_walking (va : VirtAddr) (k : Level) (t : PhysAddr) (s : State) :
    transStep va (.walking k t) s =
      if TableInside s t then
        if isPresent (tableEntry s t (vpnLevel va k)) then walkOn va s (physAddr (tableEntry s t (vpnLevel va k))) (nextLevel k)
        else walkEnd va s (.error .pageFault)
      else walkEnd va s (.error .outOfBounds) := by
  by_cases hin : TableInside s t
  · have hread : tableRead s t (vpnLevel va k) = .ok (tableEntry s t (vpnLevel va k)) := tableRead_inside _ hin
    simp only [transStep, hread, if_pos hin]
    cases nextLevel k <;> rfl
  · simp only [transStep, tableRead_outside _ hin, if_neg hin]
    rfl

/-- A terminal state stays. -/
theorem transRun_terminal (va : VirtAddr) (n : Nat) (r : Except Exception PhysAddr) (s : State) :
    transRun va n (terminal r) s = (terminal r, s) := by
  have hstep : transStep va (terminal r) s = (terminal r, s) := by
    rcases r with (_ | _) | pa <;> rfl
  induction n with
  | zero => rfl
  | succ n ih => rw [transRun, hstep, ih]

theorem transRun_walkEnd (va : VirtAddr) (n : Nat) (s : State) (r : Except Exception PhysAddr) :
    transRun va n (walkEnd va s r).1 (walkEnd va s r).2 = walkEnd va s r := by
  cases r with
  | error e => exact transRun_terminal va n (.error e) s
  | ok f => exact transRun_terminal va n (.ok (withOffset f va)) _

/-- The levels of the list are those that follow `k`, down to the last. -/
def LevelsAfter (k : Level) : List Level → Prop
  | [] => nextLevel k = none
  | j :: rest => nextLevel k = some j ∧ LevelsAfter j rest

/-- R188: run from a level, with a transition for each level still to walk, the machine ends as the walk from there does. -/
theorem transRun_walking (va : VirtAddr) (s : State) (rest : List Level) (k : Level) (t : PhysAddr)
    (hk : LevelsAfter k rest) :
    transRun va (rest.length + 1) (.walking k t) s = walkEnd va s (walkFrom s va t (k :: rest)) := by
  induction rest generalizing k t with
  | nil =>
    have hnext : nextLevel k = none := hk
    rw [transRun, transStep_walking, walkFrom_cons, hnext]
    split_ifs <;> exact transRun_walkEnd va _ s _
  | cons j rest ih =>
    obtain ⟨hnext, hj⟩ := hk
    rw [transRun, transStep_walking, walkFrom_cons, hnext]
    split_ifs
    · exact ih j _ hj
    · exact transRun_walkEnd va _ s _
    · exact transRun_walkEnd va _ s _

/-- R188: what the machine does from its TLB check, in the state and the result of `translate`. -/
theorem transRun_tlbCheck (va : VirtAddr) (s : State) :
    transRun va 5 .tlbCheck s = (terminal (translateOp va s).2, (translateOp va s).1) := by
  rcases tlb_hits_or_misses s va with ⟨w, hw⟩ | hm
  · rw [translateOp_hit hw, transRun, transStep, tlbLookup_hit hw]
    exact transRun_terminal va 4 (.ok _) _
  · have hlevels : LevelsAfter .level1 [.level2, .level3, .level4] := ⟨rfl, rfl, rfl, rfl⟩
    have hwalk : walkFrom (emit .tlbMiss s) va s.cr3 levels = pageWalk s va :=
      pageWalk_congr (t := emit .tlbMiss s) rfl rfl rfl va
    rw [transRun, transStep, tlbLookup_miss hm]
    refine (transRun_walking va (emit .tlbMiss s) _ .level1 s.cr3 hlevels).trans ?_
    rw [← levels, hwalk]
    rcases hp : pageWalk s va with e | f
    · rw [translateOp_failed hm hp]
      rfl
    · rw [translateOp_walked hm hp]
      rfl

/-- Settles O17: the machine ends in the state that stands for the result of `translate`. -/
theorem translationStatesAgree : Obligations.TranslationStatesAgree := by
  intro va s
  rw [transRun_tlbCheck]
  refine ⟨rfl, ?_⟩
  rcases (translateOp va s).2 with (_ | _) | pa <;> rfl

/-! ## READ_PHYS (R183) -/

/-- R183: READ_PHYS of a byte inside memory that misses. -/
theorem execReadPhys_filled {s : State} {pa : PhysAddr} (hs : s.halted = false) (hm : L1Misses s pa)
    (hin : pa.toNat < memBytes s) :
    exec (.readPhys pa) s = .next { s with
      l1 := (putL1Set pa (fillWay (l1SetOf s pa) (l1Tag pa) (loadLine s.mem (l1Base pa).toNat)) s).l1
      response := some ⟨.ok, (readByte s.mem pa.toNat).setWidth 64⟩, events := [.l1Miss] } :=
  (whenRunning_running hs _).trans (perform_ok (readPhysOp_filled (s := beginRequest s) hm hin))

/-- R183, R224: READ_PHYS of a byte outside memory that misses. -/
theorem execReadPhys_outside {s : State} {pa : PhysAddr} (hs : s.halted = false) (hm : L1Misses s pa)
    (hout : memBytes s ≤ pa.toNat) :
    exec (.readPhys pa) s = .next { s with halted := true, response := some ⟨.fatal, 0#64⟩, events := [.l1Miss] } :=
  (whenRunning_running hs _).trans (perform_error (readPhysOp_failed (s := beginRequest s) hm hout))

/-- Settles O25: a hit, a fill with the block as memory holds it, and a block outside memory. -/
theorem readPhysFollowsItsRule : Obligations.ReadPhysFollowsItsRule := by
  intro s pa hs
  rw [← memBytes_eq]
  exact ⟨fun w hw => execReadPhys_hit hs hw,
    fun hm hin => ⟨_, loadLine_get s.mem (l1Base pa).toNat, execReadPhys_filled hs hm hin⟩,
    execReadPhys_outside hs⟩

/-! ## READ (R182) -/

/-- R181: a translation that answers changes the TLB and the channels alone. -/
theorem execTranslate_ok_eq {s t : State} {va : VirtAddr} {pa : PhysAddr} (h : exec (.translate va) s = .next t)
    (hok : t.response = some ⟨.ok, pa⟩) :
    t = { s with tlb := t.tlb, response := t.response, events := t.events } := by
  obtain ⟨-, ⟨w, -, rfl⟩ | ⟨-, f, -, rfl⟩ | ⟨-, e, -, rfl⟩⟩ := execTranslate_next h
  · rfl
  · rfl
  · cases e <;> simp [exceptionStatus] at hok

/-- R183: READ_PHYS changes the L1, `halted` and the channels alone. -/
theorem execReadPhys_eq {s u : State} {pa : PhysAddr} (h : exec (.readPhys pa) s = .next u) :
    u = { s with l1 := u.l1, halted := u.halted, response := u.response, events := u.events } := by
  obtain ⟨-, ⟨_, -, rfl⟩ | ⟨-, -, rfl⟩ | ⟨-, -, rfl⟩⟩ := execReadPhys_next h <;> rfl

/-- R183: READ_PHYS looks neither at the TLB nor at what the last request answered. -/
theorem execReadPhys_otherTlb {s u : State} {pa : PhysAddr} (h : exec (.readPhys pa) s = .next u) (tlb : Tlb)
    (r : Option Response) (e : List Event) :
    exec (.readPhys pa) { s with tlb := tlb, response := r, events := e } = .next { u with tlb := tlb } := by
  obtain ⟨hs, ⟨w, hw, rfl⟩ | ⟨hm, hin, rfl⟩ | ⟨hm, hout, rfl⟩⟩ := execReadPhys_next h
  · exact execReadPhys_hit (s := { s with tlb := tlb, response := r, events := e }) hs hw
  · exact execReadPhys_filled (s := { s with tlb := tlb, response := r, events := e }) hs hm hin
  · exact execReadPhys_outside (s := { s with tlb := tlb, response := r, events := e }) hs hm hout

/-- R182: READ after a translation that answers is READ_PHYS of its result, under the translation's TLB and after its pulses. -/
theorem execRead_translated {s t u : State} {va : VirtAddr} {pa : PhysAddr} (ht : exec (.translate va) s = .next t)
    (hok : t.response = some ⟨.ok, pa⟩) (hu : exec (.readPhys pa) s = .next u) :
    exec (.read va) s = .next { u with tlb := t.tlb, events := t.events ++ u.events } := by
  obtain ⟨hs, -⟩ := execTranslate_next ht
  obtain ⟨r, hr⟩ := exec_completes (i := .read va) hs rfl nofun
  obtain ⟨-, t', ht', ⟨hno, -⟩ | ⟨pa', u', hok', hu', rfl⟩⟩ := execRead_next hr
  · obtain rfl : t = t' := Host.Outcome.next.inj (ht.symm.trans ht')
    exact absurd hok (hno pa)
  · obtain rfl : t = t' := Host.Outcome.next.inj (ht.symm.trans ht')
    obtain rfl : pa = pa' := by simpa using hok.symm.trans hok'
    obtain rfl : u = u' := Host.Outcome.next.inj (hu.symm.trans hu')
    rw [hr, execReadPhys_eq hu]

/-- R182: READ after a translation that does not answer OK is the translation. -/
theorem execRead_untranslated {s t : State} {va : VirtAddr} (ht : exec (.translate va) s = .next t)
    (hno : ∀ pa, t.response ≠ some ⟨.ok, pa⟩) : exec (.read va) s = .next t := by
  obtain ⟨hs, -⟩ := execTranslate_next ht
  obtain ⟨r, hr⟩ := exec_completes (i := .read va) hs rfl nofun
  obtain ⟨-, t', ht', ⟨-, rfl⟩ | ⟨pa, -, hok, -, -⟩⟩ := execRead_next hr
  · exact hr.trans (ht'.symm.trans ht)
  · obtain rfl : t = t' := Host.Outcome.next.inj (ht.symm.trans ht')
    exact absurd hok (hno pa)

/-- Settles O27: READ_PHYS gives the same from the state before the translation, but for the TLB. -/
theorem readIsTranslateThenReadPhys : Obligations.ReadIsTranslateThenReadPhys := by
  intro s t va ht
  refine ⟨fun pa u hok hu => ?_, execRead_untranslated ht⟩
  obtain ⟨hs, -⟩ := execTranslate_next ht
  obtain ⟨v, hv⟩ := exec_completes (i := .readPhys pa) hs rfl nofun
  rw [execTranslate_ok_eq ht hok, execReadPhys_otherTlb hv] at hu
  obtain rfl := Host.Outcome.next.inj hu
  exact (execRead_translated ht hok hv :)

/-- R181: TRANSLATE of an address that translates. -/
theorem execTranslate_translates {s : State} {va : VirtAddr} {pa : PhysAddr} (hs : s.halted = false)
    (h : Translates s va pa) : ∃ t, exec (.translate va) s = .next t ∧ t.response = some ⟨.ok, pa⟩ := by
  obtain ⟨w, hw, rfl⟩ | ⟨hm, hmap, rfl⟩ := h
  · exact ⟨_, execTranslate_hit hs hw, rfl⟩
  · exact ⟨_, execTranslate_walked hs hm ((pageWalk_ok_iff s va _).mpr ⟨hmap, rfl⟩), rfl⟩

/-- R183: READ_PHYS of a byte that reads. -/
theorem execReadPhys_reads {s : State} {pa : PhysAddr} {b : Byte} (hs : s.halted = false) (h : ReadsByte s pa b) :
    ∃ u, exec (.readPhys pa) s = .next u ∧ u = { s with
      l1 := u.l1, response := some ⟨.ok, b.setWidth 64⟩, events := u.events } := by
  obtain ⟨w, hw, rfl⟩ | ⟨hm, hin, rfl⟩ := h
  · exact ⟨_, execReadPhys_hit hs hw, rfl⟩
  · exact ⟨_, execReadPhys_filled hs hm hin, rfl⟩

/-- Settles O28: both halves of READ answer OK, and READ joins them. -/
theorem readAnswersTheByte : Obligations.ReadAnswersTheByte := by
  intro s va pa b hs htr hrd
  obtain ⟨t, ht, hok⟩ := execTranslate_translates hs htr
  obtain ⟨u, hu, hueq⟩ := execReadPhys_reads hs hrd
  refine ⟨t, u, ht, hu, ?_⟩
  rw [execRead_translated ht hok hu, hueq]

/-! ## MAP_PAGE and UNMAP_PAGE (R184, R185) -/

theorem whenAligned_misaligned {a : PhysAddr} (ha : a.extractLsb' 0 12 ≠ 0#12) (k : Host.Outcome State Fault Refusal) :
    whenAligned a k = .refused .misalignedTableLoc := if_neg (mt (frameAligned_iff_extract a).mp ha)

/-- R184, R185: an edit of a misaligned table is refused. -/
theorem edit_misaligned {s : State} {a : PhysAddr} (k : TableIndex) (e : Word) (hs : s.halted = false)
    (ha : a.extractLsb' 0 12 ≠ 0#12) :
    whenRunning s (whenAligned a (perform (editOp a k e) s)) = .refused .misalignedTableLoc := by
  rw [whenRunning_running hs, whenAligned_misaligned ha]

/-- R184, R185, R224: an edit of an aligned table outside memory halts the block. -/
theorem edit_outside {s : State} {a : PhysAddr} (k : TableIndex) (e : Word) (hs : s.halted = false)
    (ha : a.extractLsb' 0 12 = 0#12) (hout : s.memMB * 2 ^ 20 < a.toNat + 4096) :
    whenRunning s (whenAligned a (perform (editOp a k e) s)) = .next { s with
      halted := true, response := some ⟨.fatal, 0#64⟩, events := [] } := by
  rw [← memBytes_eq, ← not_le] at hout
  rw [whenRunning_running hs, whenAligned_aligned ((frameAligned_iff_extract a).mpr ha),
    perform_error (editOp_outside (s := beginRequest s) k e hout)]
  rfl

/-- R184, R185: an edit of an aligned table inside memory writes the eight bytes of its entry and nothing else. -/
theorem edit_writes {s : State} {a : PhysAddr} (k : TableIndex) (e : Word) (hs : s.halted = false)
    (ha : a.extractLsb' 0 12 = 0#12) (hin : a.toNat + 4096 ≤ s.memMB * 2 ^ 20) (hw : Memory.wf s.mem = true) :
    ∃ m, whenRunning s (whenAligned a (perform (editOp a k e) s)) = .next { s with
        mem := m, response := some ⟨.ok, 0#64⟩, events := [] } ∧ Memory.wf m = true ∧
      (∀ j, j < 8 → readByte m (a.toNat + 8 * k.toNat + j) = e.extractLsb' (8 * j) 8) ∧
      (∀ x, (x < a.toNat + 8 * k.toNat ∨ a.toNat + 8 * k.toNat + 8 ≤ x) → readByte m x = readByte s.mem x) := by
  rw [← memBytes_eq] at hin
  refine ⟨_, edit_inside k e hs ((frameAligned_iff_extract a).mpr ha) hin, storeBytes_wf hw _ _ _, fun j hj => ?_,
    fun x hx => readByte_storeBytes_outside s.mem _ hx⟩
  rw [← slotAddr, readByte_storeBytes_inside hw _ hj, ← Nat.shiftRight_eq_div_pow]
  rfl

/-- Settles O30: MAP_PAGE edits with the present entry of its target. -/
theorem mapPageFollowsItsRule : Obligations.MapPageFollowsItsRule := fun _ _ index target hs =>
  ⟨edit_misaligned index (newPresent target) hs, edit_outside index (newPresent target) hs,
    edit_writes index (newPresent target) hs⟩

/-- Settles O31: UNMAP_PAGE edits with the unmapped entry, whose bytes are 0. -/
theorem unmapPageFollowsItsRule : Obligations.UnmapPageFollowsItsRule := by
  intro s tableLoc index hs
  refine ⟨edit_misaligned index newUnmapped hs, edit_outside index newUnmapped hs, fun ha hin hw => ?_⟩
  obtain ⟨m, hm, hwf, hbytes, hother⟩ := edit_writes index newUnmapped hs ha hin hw
  exact ⟨m, hm, hwf, fun j hj => (hbytes j hj).trans BitVec.extractLsb'_zero, hother⟩

/-! ## INVALIDATE_TLB and INVALIDATE_CACHE (R186, R187) -/

/-- Settles O37: the TLB is replaced by the one a construction gives. -/
theorem invalidateTlbEmptiesTheTlb : Obligations.InvalidateTlbEmptiesTheTlb := fun _ hs =>
  ⟨Tlb.empty, tlbEmpty_get, whenRunning_running hs _⟩

/-- Settles O38: the L1 is replaced by the one a construction gives. -/
theorem invalidateCacheEmptiesTheL1 : Obligations.InvalidateCacheEmptiesTheL1 := by
  intro s hs
  refine ⟨L1.empty, fun i w => ?_, whenRunning_running hs _⟩
  rw [l1Empty_get]
  exact ⟨rfl, rfl, fun k => Vector.getElem_replicate k.isLt⟩

/-! ## The channels (R20, R189) -/

/-- The outcome with these requests waiting in its next state, if it has one. -/
def withRequests (q : List Request) : Host.Outcome State Fault Refusal → Host.Outcome State Fault Refusal
  | .next t => .next { t with requests := q }
  | .fault f => .fault f
  | .refused why => .refused why

/-- A body looks at no request: with others waiting it gives the same value and leaves the same state but for them. -/
def IgnoresRequests (body : State → State × Except Exception Word) : Prop :=
  ∀ (s : State) (q : List Request),
    body { s with requests := q } = ({ (body s).1 with requests := q }, (body s).2)

theorem translateOp_ignoresRequests (va : VirtAddr) : IgnoresRequests (translateOp va) := by
  intro s q
  rcases tlb_hits_or_misses s va with ⟨w, hw⟩ | hm
  · rw [translateOp_hit hw, translateOp_hit (s := { s with requests := q }) hw]
    rfl
  · have hwalk : pageWalk { s with requests := q } va = pageWalk s va := pageWalk_congr rfl rfl rfl va
    rcases hp : pageWalk s va with e | f
    · rw [translateOp_failed hm hp, translateOp_failed (s := { s with requests := q }) hm (hwalk.trans hp)]
      rfl
    · rw [translateOp_walked hm hp, translateOp_walked (s := { s with requests := q }) hm (hwalk.trans hp)]
      rfl

theorem readPhysOp_ignoresRequests (pa : PhysAddr) : IgnoresRequests (readPhysOp pa) := by
  intro s q
  rcases l1_hits_or_misses s pa with ⟨w, hw⟩ | hm
  · rw [readPhysOp_hit hw, readPhysOp_hit (s := { s with requests := q }) hw]
    rfl
  · rcases lt_or_ge pa.toNat (memBytes s) with hin | hout
    · rw [readPhysOp_filled hm hin, readPhysOp_filled (s := { s with requests := q }) hm hin]
      rfl
    · rw [readPhysOp_failed hm hout, readPhysOp_failed (s := { s with requests := q }) hm hout]
      rfl

/-- R182: READ looks at no request since neither of its halves does. -/
theorem readOp_ignoresRequests (va : VirtAddr) : IgnoresRequests (readOp va) := by
  intro s q
  have hq := translateOp_ignoresRequests va s q
  rcases ht : translateOp va s with ⟨t, e | pa⟩
  · rw [ht] at hq
    rw [readOp_failed ht, readOp_failed hq]
  · rw [ht] at hq
    rw [readOp_translated ht, readOp_translated hq]
    exact readPhysOp_ignoresRequests pa t q

theorem editOp_ignoresRequests (a : PhysAddr) (k : TableIndex) (e : Word) : IgnoresRequests (editOp a k e) := by
  intro s q
  by_cases hin : TableInside s a
  · rw [editOp_inside k e hin, editOp_inside (s := { s with requests := q }) k e hin]
  · rw [editOp_outside k e hin, editOp_outside (s := { s with requests := q }) k e hin]

/-- R60, R65: an operation starts by clearing the response and the pulses, so its body never sees the last ones. -/
theorem perform_channels {body : State → State × Except Exception Word} (hb : IgnoresRequests body) (s : State)
    (q : List Request) (r : Option Response) (ev : List Event) :
    perform body { s with requests := q, response := r, events := ev } = withRequests q (perform body s) := by
  have hq : body (beginRequest { s with requests := q, response := r, events := ev }) =
      ({ (body (beginRequest s)).1 with requests := q }, (body (beginRequest s)).2) := hb (beginRequest s) q
  rcases hbody : body (beginRequest s) with ⟨t, e | v⟩
  · rw [hbody] at hq
    rw [perform_error hbody, perform_error hq]
    cases e <;> rfl
  · rw [hbody] at hq
    rw [perform_ok hbody, perform_ok hq]
    rfl

theorem whenRunning_channels {s s' : State} {k k' : Host.Outcome State Fault Refusal} {q : List Request}
    (hs : s'.halted = s.halted) (hk : k' = withRequests q k) : whenRunning s' k' = withRequests q (whenRunning s k) := by
  rw [whenRunning, whenRunning, hs, hk]
  split <;> rfl

theorem whenAligned_channels {k k' : Host.Outcome State Fault Refusal} {q : List Request} (a : PhysAddr)
    (hk : k' = withRequests q k) : whenAligned a k' = withRequests q (whenAligned a k) := by
  rw [whenAligned, whenAligned, hk]
  split <;> rfl

/-- R189: with other values in the channels an operation has the same outcome, and leaves the same state but for the requests
still waiting. -/
theorem exec_channels (i : Instr) (s : State) (q : List Request) (r : Option Response) (e : List Event) :
    exec i { s with requests := q, response := r, events := e } = withRequests q (exec i s) := by
  cases i with
  | translate va => exact whenRunning_channels rfl (perform_channels (translateOp_ignoresRequests va) s q r e)
  | read va => exact whenRunning_channels rfl (perform_channels (readOp_ignoresRequests va) s q r e)
  | readPhys pa => exact whenRunning_channels rfl (perform_channels (readPhysOp_ignoresRequests pa) s q r e)
  | mapPage a k x =>
    exact whenRunning_channels rfl (whenAligned_channels a (perform_channels (editOp_ignoresRequests a k _) s q r e))
  | unmapPage a k =>
    exact whenRunning_channels rfl (whenAligned_channels a (perform_channels (editOp_ignoresRequests a k _) s q r e))
  | invalidateTlb => exact whenRunning_channels rfl rfl
  | invalidateCache => exact whenRunning_channels rfl rfl
  | reserved u a b => exact whenRunning_channels rfl rfl

/-- Settles O49: one equation gives both outcomes, and no operation faults. -/
theorem operationsIgnoreTheChannels : Obligations.OperationsIgnoreTheChannels := by
  intro i s q r e
  have heq := exec_channels i s q r e
  exact ⟨fun t ht => by rw [heq, ht, withRequests], fun why hw => by rw [heq, hw, withRequests], exec_ne_fault i s⟩

end Sys2Proof.Machine

/-! PROOFS. The statements of 60_exceptions. First, for each operation, the whole next state under an answer PAGE_FAULT or FATAL; then
the two statements about every operation, with READ put together from its halves (R182). -/

namespace Sys2Proof.Machine

/-! ## PAGE_FAULT (R222) -/

/-- R222: a translation that page-faults leaves its answer and the TLB_MISS pulse. -/
theorem execTranslate_pageFault {va : VirtAddr} {s t : State} {d : Word} (h : exec (.translate va) s = .next t)
    (hr : t.response = some ⟨.pageFault, d⟩) :
    t = { s with response := some ⟨.pageFault, 0#64⟩, events := [.tlbMiss] } := by
  obtain ⟨hs, ⟨_, -, rfl⟩ | ⟨-, _, -, rfl⟩ | ⟨-, e, -, rfl⟩⟩ := execTranslate_next h
  · cases hr
  · cases hr
  · cases e with
    | pageFault => rw [hs]; rfl
    | outOfBounds => cases hr

/-- R222: READ page-faults in its translation only, and so makes no L1 access. -/
theorem execRead_pageFault {va : VirtAddr} {s t : State} {d : Word} (h : exec (.read va) s = .next t)
    (hr : t.response = some ⟨.pageFault, d⟩) : exec (.translate va) s = .next t := by
  obtain ⟨-, u, hu, ⟨-, rfl⟩ | ⟨pa, v, -, hv, rfl⟩⟩ := execRead_next h
  · exact hu
  · obtain ⟨b, hok⟩ | hfatal := execReadPhys_answer hv
    · cases hok.symm.trans hr
    · cases hfatal.symm.trans hr

/-- Settles O41: only TRANSLATE and READ answer PAGE_FAULT, and READ as its translation does. -/
theorem pageFaultAnswerChangesNoState : Obligations.PageFaultAnswerChangesNoState := by
  intro i s t d h hr
  obtain ⟨r, hr', hlegal⟩ := exec_legalAnswer h
  obtain rfl : r = ⟨.pageFault, d⟩ := Option.some.inj (hr'.symm.trans hr)
  cases hlegal with
  | pageFault hi =>
    obtain ⟨va, rfl | rfl⟩ := hi
    · exact execTranslate_pageFault h hr
    · exact execTranslate_pageFault (execRead_pageFault h hr) hr

/-! ## FATAL (R224) -/

theorem execTranslate_fatal {va : VirtAddr} {s t : State} {d : Word} (h : exec (.translate va) s = .next t)
    (hr : t.response = some ⟨.fatal, d⟩) :
    t = { s with halted := true, response := some ⟨.fatal, 0#64⟩, events := [.tlbMiss] } := by
  obtain ⟨-, ⟨_, -, rfl⟩ | ⟨-, _, -, rfl⟩ | ⟨-, e, -, rfl⟩⟩ := execTranslate_next h
  · cases hr
  · cases hr
  · cases e with
    | pageFault => cases hr
    | outOfBounds => rfl

theorem execReadPhys_fatal {pa : PhysAddr} {s t : State} {d : Word} (h : exec (.readPhys pa) s = .next t)
    (hr : t.response = some ⟨.fatal, d⟩) :
    t = { s with halted := true, response := some ⟨.fatal, 0#64⟩, events := [.l1Miss] } := by
  obtain ⟨-, ⟨_, -, rfl⟩ | ⟨-, -, rfl⟩ | ⟨-, -, rfl⟩⟩ := execReadPhys_next h
  · cases hr
  · cases hr
  · rfl

theorem edit_fatal {s t : State} {a : PhysAddr} {k : TableIndex} {e d : Word}
    (h : whenRunning s (whenAligned a (perform (editOp a k e) s)) = .next t) (hr : t.response = some ⟨.fatal, d⟩) :
    t = { s with halted := true, response := some ⟨.fatal, 0#64⟩, events := [] } := by
  obtain ⟨-, -, ⟨-, rfl⟩ | ⟨-, rfl⟩⟩ := edit_next h
  · cases hr
  · rfl

/-- R224: a Fatal in READ's translation, or after it, where the translation's TLB and pulses stay and L1_MISS is added. -/
theorem execRead_fatal {va : VirtAddr} {s t : State} {d : Word} (h : exec (.read va) s = .next t)
    (hr : t.response = some ⟨.fatal, d⟩) :
    ∃ u events, exec (.translate va) s = .next u ∧ (events = u.events ∨ events = u.events ++ [.l1Miss]) ∧
      t = { s with tlb := u.tlb, halted := true, response := some ⟨.fatal, 0#64⟩, events := events } := by
  obtain ⟨-, u, hu, ⟨-, rfl⟩ | ⟨pa, v, -, hv, rfl⟩⟩ := execRead_next h
  · obtain rfl := execTranslate_fatal hu hr
    exact ⟨_, _, hu, .inl rfl, rfl⟩
  · obtain rfl := execReadPhys_fatal hv hr
    exact ⟨u, _, hu, .inr rfl, rfl⟩

/-- R224: an answer FATAL writes `halted` and the channels, and the TLB only as READ's translation did. -/
theorem exec_fatal {i : Instr} {s t : State} {d : Word} (h : exec i s = .next t) (hr : t.response = some ⟨.fatal, d⟩) :
    ∃ tlb events, t = { s with tlb := tlb, halted := true, response := some ⟨.fatal, 0#64⟩, events := events } ∧
      ((∀ va, i ≠ .read va) → tlb = s.tlb) ∧
      ∀ va, i = .read va → ∃ u, exec (.translate va) s = .next u ∧ tlb = u.tlb ∧
        (events = u.events ∨ events = u.events ++ [.l1Miss]) := by
  cases i with
  | translate va => exact ⟨_, _, execTranslate_fatal h hr, fun _ => rfl, nofun⟩
  | read va =>
    obtain ⟨u, events, hu, hev, ht⟩ := execRead_fatal h hr
    refine ⟨u.tlb, events, ht, fun hne => absurd rfl (hne va), fun va' hva => ?_⟩
    obtain rfl := Instr.read.inj hva
    exact ⟨u, hu, rfl, hev⟩
  | readPhys pa => exact ⟨_, _, execReadPhys_fatal h hr, fun _ => rfl, nofun⟩
  | mapPage a k x => exact ⟨_, _, edit_fatal h hr, fun _ => rfl, nofun⟩
  | unmapPage a k => exact ⟨_, _, edit_fatal h hr, fun _ => rfl, nofun⟩
  | invalidateTlb => obtain ⟨-, rfl⟩ := execInvalidateTlb_next h; cases hr
  | invalidateCache => obtain ⟨-, rfl⟩ := execInvalidateCache_next h; cases hr
  | reserved u a b => exact absurd h execReserved_next

/-- Settles O42: the next state of an answer FATAL, written out, is halted, and a halted block refuses everything. -/
theorem fatalAnswerHaltsForGood : Obligations.FatalAnswerHaltsForGood := by
  intro i s t d h hr
  obtain ⟨tlb, events, rfl, hother, hread⟩ := exec_fatal h hr
  have hd : d = 0#64 := by simpa using hr.symm
  exact ⟨hd, rfl, rfl, rfl, rfl, hother, hread, fun j => exec_halted j rfl, fun _ => step_halted_ne_next rfl⟩

end Sys2Proof.Machine

/-! PROOFS. The statements of 70_reset_and_hazards. First what a construction gives (R240, R241) and that translations of a fresh block
page-fault; then runs of MAP_PAGE on different slots, after which every edited slot reads as its edit wrote it, and the walk along
four of them (R243). -/

namespace Sys2Proof.Machine

/-! ## Construction (R240, R241) -/

/-- R240: construction gives a state exactly for legal parameters, and it is the listed one. -/
theorem construct_next_iff (p : Params) (s : State) :
    construct p = .next s ↔
      1 ≤ p.memMB ∧ frameAligned p.cr3Init = true ∧ 1 ≤ p.tlbCtrMax ∧ State.ofParams p = s := by
  unfold construct
  split_ifs with hmb hcr3 hctr
  · simp [not_le.mpr hmb]
  · simp [hcr3]
  · simp [not_le.mpr hctr]
  · simp [not_lt.mp hmb, not_lt.mp hctr, Bool.not_eq_false _ ▸ hcr3]

/-- R240: construction is refused exactly for illegal parameters. -/
theorem construct_refused_iff (p : Params) :
    (∃ why, construct p = .refused why) ↔ p.memMB < 1 ∨ frameAligned p.cr3Init = false ∨ p.tlbCtrMax < 1 := by
  unfold construct
  split_ifs <;> simp_all

theorem construct_ne_fault (p : Params) (f : Fault) : construct p ≠ .fault f := by
  unfold construct
  split_ifs <;> exact nofun

/-- R26: every field of an L1 way is 0 at construction. -/
theorem l1WayEmpty_fields : L1Way.empty.valid = false ∧ L1Way.empty.tag = 0#52 ∧ ∀ k : Fin 64, L1Way.empty.line[k] = 0#8 :=
  ⟨rfl, rfl, fun k => Vector.getElem_replicate k.isLt⟩

/-- Settles O46: the refusals are the illegal parameters, and every other construction gives `State.ofParams`. -/
theorem constructionGivesTheListedState : Obligations.ConstructionGivesTheListedState := by
  refine ⟨fun p => ?_, fun p s h => ?_, construct_ne_fault⟩
  · rw [construct_refused_iff, Ne, ← frameAligned_iff_extract, Bool.not_eq_true]
  · obtain ⟨-, -, -, rfl⟩ := (construct_next_iff p s).mp h
    exact ⟨rfl, rfl, rfl, rfl, fun _ => rfl, tlbEmpty_get, fun i w => (l1Empty_get i w).symm ▸ l1WayEmpty_fields⟩

/-- R7, R23, R24, R153: the state a construction gives meets the invariant: nothing is stored yet, and the parameters are legal. -/
theorem construct_inv {p : Params} {s : State} (h : construct p = .next s) : Inv s := by
  obtain ⟨hmb, hcr3, hctr, rfl⟩ := (construct_next_iff p s).mp h
  refine ⟨⟨rfl, nofun⟩, ⟨hmb, hctr, hcr3⟩, ?_, fun i w hv => ?_⟩
  · exact fun i w => (tlbEmpty_get i w).symm ▸ TlbWay.inRange_empty _
  · exact nomatch (congrArg L1Way.valid (l1Empty_get i w)).symm.trans hv

theorem construct_standard : construct Params.standard = .next State.reset :=
  (construct_next_iff _ _).mpr ⟨by decide, by decide, by decide, rfl⟩

/-- Settles O52: the reset state is a legal construction like every other. -/
theorem constructionMeetsTheBlockInvariant : Obligations.ConstructionMeetsTheBlockInvariant :=
  ⟨fun _ _ => construct_inv, construct_inv construct_standard, construct_standard⟩

/-! ## A fresh block (R243) -/

/-- R23, R241: at construction every entry of every table is 0. -/
theorem tableEntry_ofParams (p : Params) (t : PhysAddr) (i : TableIndex) : tableEntry (State.ofParams p) t i = 0#64 := rfl

theorem memBytes_ofParams (p : Params) : memBytes (State.ofParams p) = p.memMB * 2 ^ 20 := memBytes_eq _

/-- R243: the walk of a fresh block ends at the root table. -/
theorem pageWalk_ofParams {p : Params} (hroot : TableInside (State.ofParams p) p.cr3Init) (va : VirtAddr) :
    pageWalk (State.ofParams p) va = .error .pageFault :=
  (pageWalk_pageFault_iff _ _).mpr (.inl ⟨hroot, congrArg isPresent (tableEntry_ofParams p p.cr3Init (vpn1 va))⟩)

/-- Settles O47: the TLB is empty, the walk ends at the root table, and READ ends with its translation. -/
theorem freshBlockPageFaults : Obligations.FreshBlockPageFaults := by
  intro p s va h hroot
  obtain ⟨-, -, -, rfl⟩ := (construct_next_iff p s).mp h
  have hwalk := pageWalk_ofParams (p := p) (by rwa [TableInside, memBytes_ofParams]) va
  have ht := execTranslate_failed rfl (tlbMisses_of_empty rfl va) hwalk
  exact ⟨ht, execRead_untranslated ht nofun⟩

/-! ## A run of operations -/

theorem execAll_cons_next {i : Instr} {rest : List Instr} {s t : State} (h : execAll (i :: rest) s = .next t) :
    ∃ u, exec i s = .next u ∧ execAll rest u = .next t := by
  rw [execAll] at h
  split at h
  · next u hu => exact ⟨u, hu, h⟩
  · next hno => exact absurd h (hno t)

/-- R28: a run that ends in a block that is not halted began in one. -/
theorem execAll_running {l : List Instr} {s t : State} (h : execAll l s = .next t) (ht : t.halted = false) :
    s.halted = false := by
  cases l with
  | nil => exact Host.Outcome.next.inj h ▸ ht
  | cons i rest =>
    obtain ⟨u, hu, -⟩ := execAll_cons_next h
    exact eq_false_of_ne_true fun hs => nomatch (exec_halted i hs).symm.trans hu

/-! ## A run of MAP_PAGE on different slots (R184, R50) -/

/-- R45, R106: the slot a table edit writes, as its table and index. -/
def editedSlot : Instr → Option (PhysAddr × TableIndex)
  | .mapPage a k _ => some (a, k)
  | .unmapPage a k => some (a, k)
  | _ => none

/-- The operations of the list are all MAP_PAGE. -/
def AllMapPage (l : List Instr) : Prop := ∀ i ∈ l, ∃ a k x, i = .mapPage a k x

theorem allMapPage_cons {i : Instr} {rest : List Instr} (h : AllMapPage (i :: rest)) :
    (∃ a k x, i = .mapPage a k x) ∧ AllMapPage rest := List.forall_mem_cons.mp h

/-- R184: a MAP_PAGE after which the block still runs keeps memory canonical. -/
theorem execMapPage_wf {s u : State} {a : PhysAddr} {k : TableIndex} {x : PhysAddr} (hw : Memory.wf s.mem = true)
    (h : exec (.mapPage a k x) s = .next u) : Memory.wf u.mem = true := by
  obtain ⟨-, -, ⟨-, rfl⟩ | ⟨-, rfl⟩⟩ := execMapPage_next h
  · exact storeBytes_wf hw _ _ _
  · exact hw

/-- R22, R52: a run of MAP_PAGE writes neither `cr3` nor the TLB. -/
theorem execAll_mapPages_frame {l : List Instr} {s t : State} (hl : AllMapPage l) (h : execAll l s = .next t) :
    t.cr3 = s.cr3 ∧ t.tlb = s.tlb := by
  induction l generalizing s with
  | nil => exact Host.Outcome.next.inj h ▸ ⟨rfl, rfl⟩
  | cons i rest ih =>
    obtain ⟨⟨a, k, x, rfl⟩, hrest⟩ := allMapPage_cons hl
    obtain ⟨u, hu, hut⟩ := execAll_cons_next h
    obtain ⟨hc, htlb⟩ := ih hrest hut
    obtain ⟨-, -, hcu, -⟩ := exec_frame hu
    exact ⟨hc.trans hcu, htlb.trans (edit_frame hu).1⟩

/-- R50, R247: a run of MAP_PAGE leaves every entry it does not edit. -/
theorem execAll_mapPages_other {l : List Instr} {s t : State} {a : PhysAddr} {k : TableIndex} (hl : AllMapPage l)
    (h : execAll l s = .next t) (ht : t.halted = false) (ha : frameAligned a = true)
    (hne : some (a, k) ∉ l.map editedSlot) : tableRead t a k = tableRead s a k := by
  induction l generalizing s with
  | nil => exact Host.Outcome.next.inj h ▸ rfl
  | cons i rest ih =>
    obtain ⟨⟨b, j, x, rfl⟩, hrest⟩ := allMapPage_cons hl
    obtain ⟨u, hu, hut⟩ := execAll_cons_next h
    obtain ⟨hslot, hne⟩ := not_or.mp (List.mem_cons.not.mp hne)
    exact (ih hrest hut hne).trans
      (edit_tableRead_other (execAll_running hut ht) hu ha fun he => hslot (congrArg some he))

/-- R50, R184: after a run of MAP_PAGE on different slots every edited table is aligned and every edited entry reads as its edit
wrote it, since no later edit reaches it. -/
theorem execAll_mapPages_same {l : List Instr} {s t : State} {a : PhysAddr} {k : TableIndex} {x : PhysAddr}
    (hw : Memory.wf s.mem = true) (hl : AllMapPage l) (hslots : (l.map editedSlot).Nodup) (h : execAll l s = .next t)
    (ht : t.halted = false) (hmem : .mapPage a k x ∈ l) :
    frameAligned a = true ∧ tableRead t a k = .ok (newPresent x) := by
  induction l generalizing s with
  | nil => exact nomatch hmem
  | cons i rest ih =>
    obtain ⟨⟨b, j, y, rfl⟩, hrest⟩ := allMapPage_cons hl
    obtain ⟨u, hu, hut⟩ := execAll_cons_next h
    obtain ⟨hslot, hslots⟩ := List.nodup_cons.mp hslots
    rcases List.mem_cons.mp hmem with he | hmem
    · obtain ⟨rfl, rfl, rfl⟩ := Instr.mapPage.inj he
      have hru := execAll_running hut ht
      obtain ⟨ha, -, -⟩ := edit_running hu hru
      exact ⟨ha, (execAll_mapPages_other hrest hut ht ha hslot).trans (edit_tableRead_same hw hru hu)⟩
    · exact ih (execMapPage_wf hw hu) hrest hslots hut hmem

/-! ## The walk along four edits (R180, R243) -/

/-- R102: the frame address of an aligned address is the address. -/
theorem physAddr_of_aligned {a : PhysAddr} (ha : frameAligned a = true) : physAddr a = a := by
  rw [frameAligned_iff] at ha
  exact BitVec.eq_of_toNat_eq (by rw [physAddr_toNat]; omega)

/-- R180: a level whose entry MAP_PAGE wrote takes the walk to the target's frame. -/
theorem walkFrom_mapped {s : State} {va : VirtAddr} {t x : PhysAddr} {k : Level} (rest : List Level)
    (h : tableRead s t (vpnLevel va k) = .ok (newPresent x)) :
    walkFrom s va t (k :: rest) = walkFrom s va (physAddr x) rest := by
  obtain ⟨hp, hx, -⟩ := newPresent_queries x
  simp only [walkFrom, h, if_pos hp, hx]

/-- The four edits of R243, root table first. -/
def chainEdits (va : VirtAddr) (t1 t2 t3 t4 target : PhysAddr) : List Instr :=
  [.mapPage t1 (vpn1 va) t2, .mapPage t2 (vpn2 va) t3, .mapPage t3 (vpn3 va) t4, .mapPage t4 (vpn4 va) target]

theorem allMapPage_chainEdits (va : VirtAddr) (t1 t2 t3 t4 target : PhysAddr) :
    AllMapPage (chainEdits va t1 t2 t3 t4 target) := by
  simp [AllMapPage, chainEdits]

theorem editedSlot_chainEdits (va : VirtAddr) (t1 t2 t3 t4 target : PhysAddr) :
    (chainEdits va t1 t2 t3 t4 target).map editedSlot =
      [(t1, vpn1 va), (t2, vpn2 va), (t3, vpn3 va), (t4, vpn4 va)].map some := rfl

/-- R243: where each entry of the chain reads as its edit wrote it, the walk ends at the target's frame. -/
theorem pageWalk_of_chain {s : State} {va : VirtAddr} {t2 t3 t4 target : PhysAddr}
    (h : ∀ a k x, .mapPage a k x ∈ chainEdits va s.cr3 t2 t3 t4 target →
      frameAligned a = true ∧ tableRead s a k = .ok (newPresent x)) : pageWalk s va = .ok (physAddr target) := by
  obtain ⟨-, h1⟩ := h s.cr3 (vpn1 va) t2 (by simp [chainEdits])
  obtain ⟨ha2, h2⟩ := h t2 (vpn2 va) t3 (by simp [chainEdits])
  obtain ⟨ha3, h3⟩ := h t3 (vpn3 va) t4 (by simp [chainEdits])
  obtain ⟨ha4, h4⟩ := h t4 (vpn4 va) target (by simp [chainEdits])
  rw [pageWalk, levels, walkFrom_mapped (k := .level1) _ h1, physAddr_of_aligned ha2,
    walkFrom_mapped (k := .level2) _ h2, physAddr_of_aligned ha3, walkFrom_mapped (k := .level3) _ h3,
    physAddr_of_aligned ha4, walkFrom_mapped (k := .level4) _ h4, walkFrom_nil]

/-- Settles O36: whatever their order, the four entries read as the edits wrote them, and the TLB still misses. -/
theorem fourEditsMakeAnAddressTranslate : Obligations.FourEditsMakeAnAddressTranslate := by
  intro s t va t2 t3 t4 target edits hw hperm hslots h ht hmiss
  have hmaps : AllMapPage edits := fun i hi => allMapPage_chainEdits va _ _ _ _ _ i (hperm.mem_iff.mp hi)
  have hnodup : (edits.map editedSlot).Nodup :=
    (hperm.map editedSlot).nodup_iff.mpr (editedSlot_chainEdits va _ _ _ _ target ▸ hslots.map (f := some) (Option.some_injective _))
  obtain ⟨hcr3, htlb⟩ := execAll_mapPages_frame hmaps h
  have hwalk : pageWalk t va = .ok (physAddr target) := pageWalk_of_chain (t2 := t2) (t3 := t3) (t4 := t4)
    fun a k x hx => execAll_mapPages_same hw hmaps hnodup h ht (hperm.mem_iff.mpr (hcr3 ▸ hx))
  have htr := execTranslate_walked ht ((tlbMisses_congr htlb rfl).mpr hmiss) hwalk
  rw [withOffset_physAddr] at htr
  exact ⟨_, htr, rfl, rfl⟩

end Sys2Proof.Machine
